-- ==== Sys2Proof/Word.lean ====
section
/-! DEFINITION. The machine's word and its parts (00_scope.md R9, R10; 30_encoding.md R61). -/

namespace Sys2Proof

/-- The native datum: every register, memory cell and instruction is 16 bits wide (R7, R10, R19). -/
abbrev Word := BitVec 16

/-- Half of a word: the immediate of HBY and LBY (R64). -/
abbrev Byte := BitVec 8

/-- A 4-bit field of an instruction word (R16 "Nibble", R61). -/
abbrev Nibble := BitVec 4

end Sys2Proof
end

