-- ==== Sys2Proof/Machine/Flags.lean ====
section
/-! DEFINITION. The flag computations (43_arithmetic.md R98, 44_logic_and_shift.md R111) and the sign classes of a
word (45_branch.md R113). -/

namespace Sys2Proof.Machine

/-- "negative": bit 15 is set (00_scope.md R10). -/
def isNegative (v : Word) : Bool := v.getLsbD 15

/-- The value is 0 (45_branch.md R113). -/
def isZero (v : Word) : Bool := v == 0#16

/-- Bit 15 is clear and the value is not 0 (45_branch.md R113). -/
def isPositive (v : Word) : Bool := !isNegative v && !isZero v

/-- The adder's sum, over unbounded integers (43_arithmetic.md R98). -/
def adderSum (p q : Word) (cin : Bool) : Nat := p.toNat + q.toNat + cin.toNat

/-- The truncated sum, `sum & 0xFFFF` (43_arithmetic.md R98). -/
def adderResult (p q : Word) (cin : Bool) : Word := BitVec.ofNat 16 (adderSum p q cin)

/-- `C <- (sum >= 65536)` (43_arithmetic.md R98). -/
def adderCarry (p q : Word) (cin : Bool) : Bool := decide (65536 ≤ adderSum p q cin)

/-- V: both operands negative and the result not, or neither negative and the result negative
(43_arithmetic.md R98). -/
def adderOverflow (p q : Word) (cin : Bool) : Bool :=
  (isNegative p && isNegative q && !isNegative (adderResult p q cin)) ||
  (!isNegative p && !isNegative q && isNegative (adderResult p q cin))

end Sys2Proof.Machine
end

