-- ==== Sys2Proof/Syntax.lean ====
section
/-! DEFINITION. The instructions, one constructor per row of spec/opcode_table.json, each with only the fields its
meaning uses (30_encoding.md R62, R63). -/

namespace Sys2Proof

/-- The index of a general register, R0 to RF (10_state.md R20, 30_encoding.md R69). -/
abbrev Reg := Fin 16

/-- The direction of SHF: bit 3 of field b (30_encoding.md R66). -/
inductive ShiftDir where
  | left
  | right
deriving DecidableEq, Repr

/-- The sixteen decoded variants (30_encoding.md R63). -/
inductive Instr where
  /-- END: end the frame (R92). -/
  | endFrame
  /-- HBY imm8, Rd: load the high byte (R93). -/
  | hby (imm8 : Byte) (d : Reg)
  /-- LBY imm8, Rd: load the low byte (R94). -/
  | lby (imm8 : Byte) (d : Reg)
  /-- LOD Ra, Rd: load a word (R96). -/
  | lod (a d : Reg)
  /-- STR Ra, Rb: store a word (R97). -/
  | str (a b : Reg)
  /-- ADD Ra, Rb -> Rd (R102). -/
  | add (a b d : Reg)
  /-- SUB Ra, Rb -> Rd (R103). -/
  | sub (a b d : Reg)
  /-- ADI Ra+imm4, Rd (R104). -/
  | adi (a : Reg) (imm4 : Nibble) (d : Reg)
  /-- SBI Ra-imm4, Rd (R105). -/
  | sbi (a : Reg) (imm4 : Nibble) (d : Reg)
  /-- AND Ra, Rb -> Rd (R107). -/
  | and (a b d : Reg)
  /-- ORR Ra, Rb -> Rd (R108). -/
  | orr (a b d : Reg)
  /-- XOR Ra, Rb -> Rd (R109). -/
  | xor (a b d : Reg)
  /-- NOT Ra, Rd (R110). -/
  | not (a d : Reg)
  /-- SHF Ra, L|R, k, Rd (R111); `amount` is k, the number of places. -/
  | shf (a : Reg) (dir : ShiftDir) (amount : Nat) (d : Reg)
  /-- BRV Ra, Rb, cond: condition bits negative, zero, positive (R113). -/
  | brv (a b : Reg) (n z p : Bool)
  /-- BRF Rb, cond: condition bits overflow, carry (R114). -/
  | brf (b : Reg) (v cy : Bool)
deriving DecidableEq, Repr

end Sys2Proof
end

