-- ==== Sys2Proof/WellFormed.lean ====
section
/-! DEFINITION. Which decoded variants some word encodes. Register indices and immediates carry their bound in their
type; the amount of SHF is a number and is checked here (30_encoding.md R66). -/

namespace Sys2Proof

/-- No encoding shifts by 0 or by more than 8 (R66). -/
def ShiftDir.amountOk (amount : Nat) : Bool := decide (1 ≤ amount) && decide (amount ≤ 8)

/-- The variant is the decoding of some word (R63, R66, R69). -/
def Instr.wellFormed : Instr → Bool
  | .endFrame => true
  | .hby _ _ => true
  | .lby _ _ => true
  | .lod _ _ => true
  | .str _ _ => true
  | .add _ _ _ => true
  | .sub _ _ _ => true
  | .adi _ _ _ => true
  | .sbi _ _ _ => true
  | .and _ _ _ => true
  | .orr _ _ _ => true
  | .xor _ _ _ => true
  | .not _ _ => true
  | .shf _ _ amount _ => ShiftDir.amountOk amount
  | .brv _ _ _ _ _ => true
  | .brf _ _ _ => true

end Sys2Proof
end

