-- ==== Sys2Proof/Decode.lean ====
section
/-! DEFINITION. The decoder and the encoder (30_encoding.md R60 to R72, R74). Decoding is total: no word is illegal,
so the decoder rejects nothing (R70). -/

namespace Sys2Proof

/-- The sixteen opcodes (R62). -/
inductive Opcode where
  | endFrame | hby | lby | lod | str | add | sub | adi
  | sbi | and | orr | xor | not | shf | brv | brf
deriving DecidableEq, Repr

/-- The opcode field of each mnemonic (R62). The assignment inside 5..8 and 9..B is a DESIGN CHOICE of the spec
(D13), unsafe; log 10. -/
def Opcode.code : Opcode → Nibble
  | .endFrame => 0x0#4
  | .hby => 0x1#4
  | .lby => 0x2#4
  | .lod => 0x3#4
  | .str => 0x4#4
  | .add => 0x5#4
  | .sub => 0x6#4
  | .adi => 0x7#4
  | .sbi => 0x8#4
  | .and => 0x9#4
  | .orr => 0xA#4
  | .xor => 0xB#4
  | .not => 0xC#4
  | .shf => 0xD#4
  | .brv => 0xE#4
  | .brf => 0xF#4

/-- The opcode map read by the decoder, in the order 0x0 to 0xF (R62). -/
def opcodeMap : Vector Opcode 16 :=
  #v[.endFrame, .hby, .lby, .lod, .str, .add, .sub, .adi,
     .sbi, .and, .orr, .xor, .not, .shf, .brv, .brf]

/-- The opcode an opcode field selects; every one of the 16 values is used (R62, R70). -/
def opcodeOf (f : Nibble) : Opcode := opcodeMap[f.toNat]'f.isLt

/-- `op = w[15:12]` (R61). -/
def fieldOp (w : Word) : Nibble := w.extractLsb' 12 4

/-- `a = w[11:8]` (R61). -/
def fieldA (w : Word) : Nibble := w.extractLsb' 8 4

/-- `b = w[7:4]` (R61). -/
def fieldB (w : Word) : Nibble := w.extractLsb' 4 4

/-- `c = w[3:0]` (R61). -/
def fieldC (w : Word) : Nibble := w.extractLsb' 0 4

/-- A register operand: the field names `x[field]` directly (R69). -/
def regOf (f : Nibble) : Reg := f.toFin

/-- `imm8 = (a << 4) | b` (R64). -/
def imm8Of (w : Word) : Byte := fieldA w ++ fieldB w

/-- SHF's direction, bit 3 of field b: 0 left, 1 right (R66). -/
def shiftDirOf (b : Nibble) : ShiftDir := if b.getLsbD 3 then .right else .left

/-- SHF's amount, `(b & 7) + 1`, from 1 to 8 (R66). -/
def shiftAmountOf (b : Nibble) : Nat := (b.extractLsb' 0 3).toNat + 1

/-- `Dec(w)`: every word decodes to one variant, with only the fields its meaning uses (R63, R70, R71). -/
def decode (w : Word) : Instr :=
  match opcodeOf (fieldOp w) with
  | .endFrame => .endFrame
  | .hby => .hby (imm8Of w) (regOf (fieldC w))
  | .lby => .lby (imm8Of w) (regOf (fieldC w))
  | .lod => .lod (regOf (fieldA w)) (regOf (fieldC w))
  | .str => .str (regOf (fieldA w)) (regOf (fieldB w))
  | .add => .add (regOf (fieldA w)) (regOf (fieldB w)) (regOf (fieldC w))
  | .sub => .sub (regOf (fieldA w)) (regOf (fieldB w)) (regOf (fieldC w))
  | .adi => .adi (regOf (fieldA w)) (fieldB w) (regOf (fieldC w))
  | .sbi => .sbi (regOf (fieldA w)) (fieldB w) (regOf (fieldC w))
  | .and => .and (regOf (fieldA w)) (regOf (fieldB w)) (regOf (fieldC w))
  | .orr => .orr (regOf (fieldA w)) (regOf (fieldB w)) (regOf (fieldC w))
  | .xor => .xor (regOf (fieldA w)) (regOf (fieldB w)) (regOf (fieldC w))
  | .not => .not (regOf (fieldA w)) (regOf (fieldC w))
  | .shf => .shf (regOf (fieldA w)) (shiftDirOf (fieldB w)) (shiftAmountOf (fieldB w)) (regOf (fieldC w))
  | .brv => .brv (regOf (fieldA w)) (regOf (fieldB w))
      ((fieldC w).getLsbD 2) ((fieldC w).getLsbD 1) ((fieldC w).getLsbD 0)
  | .brf => .brf (regOf (fieldB w)) ((fieldC w).getLsbD 1) ((fieldC w).getLsbD 0)

/-- The instruction an opcode-table row's bits stand for. An instruction is one 16-bit word (R60), so a row of at
most 16 bits is that word with the bits above `nbits` zero; a wider row is none of this machine's. -/
def decodeTableWord (nbits w : Nat) : Option Instr :=
  if nbits ≤ 16 then some (decode (BitVec.ofNat 16 (w % 2 ^ nbits))) else none

/-- The word of four fields (R61). -/
def packFields (op a b c : Nibble) : Word := op ++ a ++ b ++ c

/-- The 4-bit field that names a register (R69). -/
def regField (r : Reg) : Nibble := BitVec.ofFin r

/-- Field b of SHF: direction in bit 3, `k - 1` in bits 2..0 (R66, R74). -/
def shiftField (dir : ShiftDir) (amount : Nat) : Nibble :=
  (match dir with
    | .left => 0#1
    | .right => 1#1) ++ BitVec.ofNat 3 (amount - 1)

/-- Field c of BRV: `4N + 2Z + P` (R67, R74). -/
def brvField (n z p : Bool) : Nibble := 0#1 ++ BitVec.ofBool n ++ BitVec.ofBool z ++ BitVec.ofBool p

/-- Field c of BRF: `2V + C` (R68, R74). -/
def brfField (v cy : Bool) : Nibble := 0#2 ++ BitVec.ofBool v ++ BitVec.ofBool cy

/-- The upper and the lower half of an 8-bit immediate, fields a and b of HBY and LBY (R64). -/
def immFieldHigh (imm8 : Byte) : Nibble := imm8.extractLsb' 4 4

/-- See `immFieldHigh`. -/
def immFieldLow (imm8 : Byte) : Nibble := imm8.extractLsb' 0 4

/-- The opcode of an instruction (R62). -/
def Instr.opcode : Instr → Opcode
  | .endFrame => .endFrame
  | .hby _ _ => .hby
  | .lby _ _ => .lby
  | .lod _ _ => .lod
  | .str _ _ => .str
  | .add _ _ _ => .add
  | .sub _ _ _ => .sub
  | .adi _ _ _ => .adi
  | .sbi _ _ _ => .sbi
  | .and _ _ _ => .and
  | .orr _ _ _ => .orr
  | .xor _ _ _ => .xor
  | .not _ _ => .not
  | .shf _ _ _ _ => .shf
  | .brv _ _ _ _ _ => .brv
  | .brf _ _ _ => .brf

/-- The word of an instruction, 0 in the fields it does not use (R74: "An assembler writes 0 into unused fields",
log 19). -/
def encode (i : Instr) : Word :=
  match i with
  | .endFrame => packFields Opcode.endFrame.code 0 0 0
  | .hby imm8 d => packFields Opcode.hby.code (immFieldHigh imm8) (immFieldLow imm8) (regField d)
  | .lby imm8 d => packFields Opcode.lby.code (immFieldHigh imm8) (immFieldLow imm8) (regField d)
  | .lod a d => packFields Opcode.lod.code (regField a) 0 (regField d)
  | .str a b => packFields Opcode.str.code (regField a) (regField b) 0
  | .add a b d => packFields Opcode.add.code (regField a) (regField b) (regField d)
  | .sub a b d => packFields Opcode.sub.code (regField a) (regField b) (regField d)
  | .adi a imm4 d => packFields Opcode.adi.code (regField a) imm4 (regField d)
  | .sbi a imm4 d => packFields Opcode.sbi.code (regField a) imm4 (regField d)
  | .and a b d => packFields Opcode.and.code (regField a) (regField b) (regField d)
  | .orr a b d => packFields Opcode.orr.code (regField a) (regField b) (regField d)
  | .xor a b d => packFields Opcode.xor.code (regField a) (regField b) (regField d)
  | .not a d => packFields Opcode.not.code (regField a) 0 (regField d)
  | .shf a dir amount d => packFields Opcode.shf.code (regField a) (shiftField dir amount) (regField d)
  | .brv a b n z p => packFields Opcode.brv.code (regField a) (regField b) (brvField n z p)
  | .brf b v cy => packFields Opcode.brf.code 0 (regField b) (brfField v cy)

/-- The bits of a word that the instruction of that opcode uses; the others do not matter (R71). -/
def Opcode.usedBits : Opcode → Word
  | .endFrame => 0xF000#16
  | .lod => 0xFF0F#16
  | .str => 0xFFF0#16
  | .not => 0xFF0F#16
  | .brv => 0xFFF7#16
  | .brf => 0xF0F3#16
  | .hby => 0xFFFF#16
  | .lby => 0xFFFF#16
  | .add => 0xFFFF#16
  | .sub => 0xFFFF#16
  | .adi => 0xFFFF#16
  | .sbi => 0xFFFF#16
  | .and => 0xFFFF#16
  | .orr => 0xFFFF#16
  | .xor => 0xFFFF#16
  | .shf => 0xFFFF#16

end Sys2Proof
end

