-- ==== Sys2Proof/Config.lean ====
section
/-! DEFINITION. The fixed sizes and boundaries of the core (00_scope.md R7; 20_memory.md R40) and the one value
the spec leaves open (60_exceptions.md R118). None of the sizes is a parameter (R7, R8). -/

namespace Sys2Proof.Config

/-- PROG_WORDS (R7, R35). -/
abbrev progWords : Nat := 65536

/-- ROM_WORDS (R7, R45). -/
abbrev romWords : Nat := 32768

/-- RAM_WORDS (R7, R46). -/
abbrev ramWords : Nat := 30720

/-- IO_WORDS, the size of each I/O buffer (R7, R38). DESIGN CHOICE of the spec (D9), unsafe; log 16. -/
abbrev ioWords : Nat := 1024

/-- First data address of the RAM, and the end of the ROM (R40). -/
abbrev ramBase : Nat := 0x8000

/-- First data address of the I/O window, and the end of the RAM (R40). -/
abbrev ioBase : Nat := 0xF800

/-- First data address that maps to no store (R40, R48). -/
abbrev ioLimit : Nat := 0xFC00

/-- What is kept of a RAM address to give its offset (R40). -/
abbrev ramOffsetMask : Word := 0x7FFF#16

/-- What is kept of an I/O address to give its offset (R40). -/
abbrev ioOffsetMask : Word := 0x03FF#16

/-- FREE VALUE, safe; log 11. When both construction inputs are too long the spec does not say which error is
reported (R118, D23): `true` means ProgramTooLong. It has no body, so a claim holds for either answer. -/
opaque reportsProgramTooLong : (program data : List Word) → Bool

end Sys2Proof.Config
end

