-- ==== Sys2Proof/Machine/State.lean ====
section
/-! DEFINITION. The state of one Cpu instance (10_state.md R18: "A Cpu instance holds exactly this state. Nothing else
is architectural"), the reasons a step can stop, and the state right after construction. -/

namespace Sys2Proof.Machine

/-- One store of words, held as byte cells in a canonical form: the word at index i is the cells 2i (bits 7..0)
and 2i+1 (bits 15..8), and an unlisted cell is 0. The order of the two halves is a DESIGN CHOICE, safe: no
operation reads half a word (20_memory.md R49); log 1. -/
abbrev Memory := List Host.Cell

/-- The two I/O buffers, `io[1]` and `io[2]`, and the value of the selector (10_state.md R32, R38). -/
inductive Bank where
  | one
  | two
deriving DecidableEq, Repr

/-- `other(k) = 3 - k` (00_scope.md R11). -/
def Bank.other : Bank → Bank
  | .one => .two
  | .two => .one

/-- The kind and the address of a raised fault (10_state.md R18, 60_exceptions.md R115). The names are the spec's
(D14). -/
inductive FaultRecord where
  /-- LOD at an address of 0xFC00 or above. -/
  | readOutOfBounds (addr : Word)
  /-- STR at an address below 0x8000. -/
  | writeToRom (addr : Word)
  /-- STR at an address of 0xFC00 or above. -/
  | writeOutOfBounds (addr : Word)
deriving DecidableEq, Repr

/-- Why the machine stops. -/
inductive Fault where
  /-- Raised by `step` and by the run command on an instance that a fault has ended: it "accepts no further step or
  run" (60_exceptions.md R121, 93_implementation_defined.md I16 "stuck"). Safe: the original software might go on
  where the model stops (D15). Carries the recorded fault. -/
  | instanceFaulted (record : FaultRecord)
deriving DecidableEq, Repr

/-- Why the model gives no meaning. No arm of `exec` refuses. -/
inductive Refusal where
  /-- Raised by `exec` for an instruction without a meaning, by its mnemonic. Safe. No instruction is in this
  case. -/
  | notModelled (mnemonic : String)
deriving DecidableEq, Repr

/-- The state of one instance (10_state.md R18). The decoded-instruction array of R18 is `Dec(Prog[p])` for every p
(R36, R39) and is computed, not stored (log 2). -/
structure State where
  /-- `x[0..15]` (R20). -/
  regs : Vector Word 16
  /-- The program counter (R24). -/
  pc : Word
  /-- `carryFlag`, C (R27). -/
  carry : Bool
  /-- `overflowFlag`, V (R27). -/
  overflow : Bool
  /-- Program memory, 65536 words (R35). -/
  prog : Memory
  /-- Data ROM, 32768 words (R37, 20_memory.md R45). -/
  rom : Memory
  /-- Data RAM, 30720 words (R37, 20_memory.md R46). -/
  ram : Memory
  /-- I/O buffer 1, 1024 words (R38). -/
  io1 : Memory
  /-- I/O buffer 2, 1024 words (R38). -/
  io2 : Memory
  /-- The active-buffer selector (R32). -/
  active : Bank
  /-- The fault record (R18, 60_exceptions.md R121). -/
  fault : Option FaultRecord
deriving DecidableEq, Repr

/-- The instance right after construction from an empty program and empty data (70_reset_and_hazards.md R129, R130).
That the images are empty is the model's choice (log 4); pc, C, V, the buffers and the selector have the values the
spec decides in D10 to D12 (log 5). -/
def State.reset : State where
  regs := Vector.replicate 16 0#16
  pc := 0#16
  carry := false
  overflow := false
  prog := []
  rom := []
  ram := []
  io1 := []
  io2 := []
  active := .one
  fault := none

end Sys2Proof.Machine
end

