-- ==== Sys2Proof/Machine/Ops.lean ====
section
/-! DEFINITION. The named operations over registers, pc, flags, stores, the address decoder, raising a fault, and
fetching. Every read and write of a component goes through these. -/

namespace Sys2Proof.Machine

/-! ## Updates of one component -/

/-- `x[r]` (00_scope.md R11). -/
def State.reg (s : State) (r : Reg) : Word := s.regs[r.val]'r.isLt

/-- `x[r] <- v` (00_scope.md R11). No register is hard-wired (10_state.md R20). -/
def State.setReg (s : State) (r : Reg) (v : Word) : State := { s with regs := s.regs.set r.val v r.isLt }

/-- `pc <- t`. -/
def State.setPc (s : State) (t : Word) : State := { s with pc := t }

/-- `pc <- (pc + 1) mod 65536` (10_state.md R25). -/
def State.advancePc (s : State) : State := s.setPc (s.pc + 1#16)

/-- `C <- c`. -/
def State.setCarry (s : State) (c : Bool) : State := { s with carry := c }

/-- `V <- v`. -/
def State.setOverflow (s : State) (v : Bool) : State := { s with overflow := v }

/-- Replaces program memory: only construction does (10_state.md R35). -/
def State.setProg (s : State) (m : Memory) : State := { s with prog := m }

/-- Replaces the data ROM: only construction does (20_memory.md R45). -/
def State.setRom (s : State) (m : Memory) : State := { s with rom := m }

/-- Replaces the data RAM. -/
def State.setRam (s : State) (m : Memory) : State := { s with ram := m }

/-- `io[k]` (00_scope.md R11). -/
def State.buffer (s : State) (k : Bank) : Memory :=
  match k with
  | .one => s.io1
  | .two => s.io2

/-- Replaces I/O buffer k. -/
def State.setBuffer (s : State) (k : Bank) (m : Memory) : State :=
  match k with
  | .one => { s with io1 := m }
  | .two => { s with io2 := m }

/-- `active <- k`; only the swap does (10_state.md R32). -/
def State.setActive (s : State) (k : Bank) : State := { s with active := k }

/-- Replaces the fault record. -/
def State.setFault (s : State) (r : Option FaultRecord) : State := { s with fault := r }

/-! ## Stores of words -/

/-- The cell k of a store; an unlisted cell is 0, the contents construction gives (70_reset_and_hazards.md R129). -/
def Memory.readByte (m : Memory) (k : Nat) : Byte :=
  match m with
  | [] => 0#8
  | (j, b) :: rest => if j = k then b else Memory.readByte rest k

/-- The store without cell k. -/
def Memory.eraseByte (m : Memory) (k : Nat) : Memory :=
  match m with
  | [] => []
  | (j, b) :: rest => if j = k then Memory.eraseByte rest k else (j, b) :: Memory.eraseByte rest k

/-- The store with the cell (k, b) put before the first larger key. -/
def Memory.insertByte (m : Memory) (k : Nat) (b : Byte) : Memory :=
  match m with
  | [] => [(k, b)]
  | (j, c) :: rest => if k < j then (k, b) :: (j, c) :: rest else (j, c) :: Memory.insertByte rest k b

/-- Writes cell k, keeping the canonical form: writing 0 removes the cell. -/
def Memory.writeByte (m : Memory) (k : Nat) (b : Byte) : Memory :=
  if b = 0#8 then m.eraseByte k else (m.eraseByte k).insertByte k b

/-- The word at index i of a store. -/
def Memory.readWord (m : Memory) (i : Nat) : Word := m.readByte (2 * i + 1) ++ m.readByte (2 * i)

/-- Writes the word at index i of a store. -/
def Memory.writeWord (m : Memory) (i : Nat) (v : Word) : Memory :=
  (m.writeByte (2 * i) (v.extractLsb' 0 8)).writeByte (2 * i + 1) (v.extractLsb' 8 8)

/-- The store that holds the words from index i on, the rest as in `m`. -/
def Memory.loadWords (m : Memory) (i : Nat) (words : List Word) : Memory :=
  match words with
  | [] => m
  | v :: rest => Memory.loadWords (m.writeWord i v) (i + 1) rest

/-- The `count` words from index i on. -/
def Memory.readWords (m : Memory) (i count : Nat) : List Word :=
  match count with
  | 0 => []
  | n + 1 => m.readWord i :: Memory.readWords m (i + 1) n

/-- Keys rise strictly from `low` on, and no listed cell is 0. -/
def Memory.wfFrom (low : Nat) (m : Memory) : Bool :=
  match m with
  | [] => true
  | (k, b) :: rest => decide (low ≤ k) && !(b == 0#8) && Memory.wfFrom (k + 1) rest

/-- The canonical form: keys strictly rising, no cell equal to what an unlisted one reads as. -/
def Memory.wf (m : Memory) : Bool := Memory.wfFrom 0 m

/-- Every listed cell belongs to a word of index below `words`. -/
def Memory.within (m : Memory) (words : Nat) : Bool := m.all fun c => decide (c.1 < 2 * words)

/-! ## The address decoder -/

/-- The store and the offset an address of the data space names, or none (20_memory.md R40). -/
inductive Target where
  | rom (offset : Nat)
  | ram (offset : Nat)
  | io (offset : Nat)
  | unmapped
deriving DecidableEq, Repr

/-- The one partition that reads and writes share (20_memory.md R40, R41). -/
def route (addr : Word) : Target :=
  if addr.toNat < Config.ramBase then .rom addr.toNat
  else if addr.toNat < Config.ioBase then .ram (addr &&& Config.ramOffsetMask).toNat
  else if addr.toNat < Config.ioLimit then .io (addr &&& Config.ioOffsetMask).toNat
  else .unmapped

/-- `MemRead(addr, 1)` (20_memory.md R43). -/
def memRead (addr : Word) (s : State) : Except FaultRecord Word :=
  match route addr with
  | .rom k => .ok (s.rom.readWord k)
  | .ram k => .ok (s.ram.readWord k)
  | .io k => .ok ((s.buffer s.active).readWord k)
  | .unmapped => .error (.readOutOfBounds addr)

/-- Writes word i of I/O buffer k. -/
def State.writeBuffer (s : State) (k : Bank) (i : Nat) (v : Word) : State :=
  s.setBuffer k ((s.buffer k).writeWord i v)

/-- `MemWrite(addr, 1, v)` (20_memory.md R44). -/
def memWrite (addr v : Word) (s : State) : Except FaultRecord State :=
  match route addr with
  | .rom _ => .error (.writeToRom addr)
  | .ram k => .ok (s.setRam (s.ram.writeWord k v))
  | .io k => .ok (s.writeBuffer s.active k v)
  | .unmapped => .error (.writeOutOfBounds addr)

/-! ## Raising a fault -/

/-- Fault entry (60_exceptions.md R119 to R121): no handler, vector, saved register or mode; the pc, the registers,
the flags and the memory keep their values, and the instance records the kind and the address. There is no return
(R122). That a raised fault is a next state with the record set, and the machine stops at the step after it, is a
DESIGN CHOICE, safe; log 3. -/
def State.raiseFault (s : State) (r : FaultRecord) : State := s.setFault (some r)

/-- The outcome of an instruction whose one data access may fault: with the access done, `k` finishes the
instruction; with a fault raised, nothing else happens (40_engine.md R78). -/
def afterAccess {α : Type} (access : Except FaultRecord α) (s : State) (k : α → State) :
    Host.Outcome State Fault Refusal :=
  match access with
  | .ok v => .next (k v)
  | .error r => .next (s.raiseFault r)

/-! ## Fetch -/

/-- `Instr[p] = Dec(Prog[p])` (10_state.md R36); log 2. -/
def State.instrAt (s : State) (p : Word) : Instr := decode (s.prog.readWord p.toNat)

/-- The instruction `step` fetches (40_engine.md R75, R76). -/
def State.fetched (s : State) : Instr := s.instrAt s.pc

/-- Puts the word w at the pc in program memory and clears the fault record; stands for loading a program from
outside (log 4, log 15). -/
def State.loadAtPc (s : State) (w : Word) : State :=
  (s.setProg (s.prog.writeWord s.pc.toNat w)).setFault none

end Sys2Proof.Machine
end

