-- ==== Sys2Proof/Machine/Operands.lean ====
section
/-! DEFINITION. The operand forms (30_encoding.md R64 to R69; 42_load_store.md R95; 44_logic_and_shift.md R111).
A register operand is `State.reg` of Ops. -/

namespace Sys2Proof.Machine

/-- `ea = x[a]`: the one addressing mode, register indirect (42_load_store.md R95). -/
def State.effectiveAddress (s : State) (a : Reg) : Word := s.reg a

/-- `zext_16(imm4)` (30_encoding.md R65). -/
def zextImm4 (imm4 : Nibble) : Word := imm4.setWidth 16

/-- `(imm8 << 8) | (x & 0x00FF)` (41_halt_and_byte_load.md R93). Keeping the low byte is a DESIGN CHOICE of the spec
(D1), unsafe; log 6. -/
def withHighByte (old : Word) (imm8 : Byte) : Word := (imm8.setWidth 16 <<< 8) ||| (old &&& 0x00FF#16)

/-- `(x & 0xFF00) | imm8` (41_halt_and_byte_load.md R94). Keeping the high byte is a DESIGN CHOICE of the spec (D2),
unsafe; log 6. -/
def withLowByte (old : Word) (imm8 : Byte) : Word := (old &&& 0xFF00#16) ||| imm8.setWidth 16

/-- The shifted value: left, truncated to 16 bits; right, filled with zeros (44_logic_and_shift.md R111). -/
def shiftResult (v : Word) (dir : ShiftDir) (amount : Nat) : Word :=
  match dir with
  | .left => v <<< amount
  | .right => v >>> amount

/-- The bit shifted past the boundary, of the pre-shift value: `v[16 - k]` left, `v[k - 1]` right
(44_logic_and_shift.md R111). -/
def shiftCarry (v : Word) (dir : ShiftDir) (amount : Nat) : Bool :=
  match dir with
  | .left => v.getLsbD (16 - amount)
  | .right => v.getLsbD (amount - 1)

end Sys2Proof.Machine
end

