-- ==== Sys2Proof/Machine/Arithmetic.lean ====
section
/-! DEFINITION. The adder and ADD, SUB, ADI, SBI (43_arithmetic.md R98 to R105). -/

namespace Sys2Proof.Machine

/-- `basicAdd(p, q, cin, d)` (R98): both flags and the destination. -/
def basicAdd (p q : Word) (cin : Bool) (d : Reg) (s : State) : State :=
  ((s.setCarry (adderCarry p q cin)).setOverflow (adderOverflow p q cin)).setReg d (adderResult p q cin)

/-- Subtraction: `basicAdd` of the complement with carry-in 1 (R99). -/
def basicSub (p q : Word) (d : Reg) (s : State) : State := basicAdd p (~~~q) true d s

/-- ADD Ra, Rb -> Rd (R102). Carry-in 0 is a DESIGN CHOICE of the spec (D7), unsafe; log 8. -/
def execAdd (a b d : Reg) (s : State) : Host.Outcome State Fault Refusal :=
  .next (basicAdd (s.reg a) (s.reg b) false d s).advancePc

/-- SUB Ra, Rb -> Rd (R103). -/
def execSub (a b d : Reg) (s : State) : Host.Outcome State Fault Refusal :=
  .next (basicSub (s.reg a) (s.reg b) d s).advancePc

/-- ADI Ra+imm4, Rd (R104). Carry-in 0 as for ADD (D7), unsafe; log 8. -/
def execAdi (a : Reg) (imm4 : Nibble) (d : Reg) (s : State) : Host.Outcome State Fault Refusal :=
  .next (basicAdd (s.reg a) (zextImm4 imm4) false d s).advancePc

/-- SBI Ra-imm4, Rd (R105). -/
def execSbi (a : Reg) (imm4 : Nibble) (d : Reg) (s : State) : Host.Outcome State Fault Refusal :=
  .next (basicSub (s.reg a) (zextImm4 imm4) d s).advancePc

end Sys2Proof.Machine
end

