-- ==== Sys2Proof/Machine/Branch.lean ====
section
/-! DEFINITION. BRV, BRF (45_branch.md R112 to R114). -/

namespace Sys2Proof.Machine

/-- Both branches are absolute and register-indirect (R112). Advancing the pc when the condition fails is a DESIGN
CHOICE of the spec (D6), unsafe; log 7. -/
def branchTo (taken : Bool) (target : Word) (s : State) : State :=
  if taken then s.setPc target else s.advancePc

/-- BRV's condition: the union of the selected classes (R113). The union is a DESIGN CHOICE of the spec (D4),
unsafe; log 7. -/
def valueCondition (v : Word) (n z p : Bool) : Bool :=
  (n && isNegative v) || (z && isZero v) || (p && isPositive v)

/-- BRF's condition: the union of the selected flags (R114). The union is a DESIGN CHOICE of the spec (D5), unsafe;
log 7. -/
def flagCondition (overflow carry v cy : Bool) : Bool := (v && overflow) || (cy && carry)

/-- BRV Ra, Rb, cond (R113). That field a names a register is a DESIGN CHOICE of the spec (D3), unsafe; log 7. -/
def execBrv (a b : Reg) (n z p : Bool) (s : State) : Host.Outcome State Fault Refusal :=
  .next (branchTo (valueCondition (s.reg a) n z p) (s.reg b) s)

/-- BRF Rb, cond (R114). -/
def execBrf (b : Reg) (v cy : Bool) (s : State) : Host.Outcome State Fault Refusal :=
  .next (branchTo (flagCondition s.overflow s.carry v cy) (s.reg b) s)

end Sys2Proof.Machine
end

