-- ==== Sys2Proof/Machine/HaltAndByteLoad.lean ====
section
/-! DEFINITION. END, HBY, LBY (41_halt_and_byte_load.md R92 to R94). -/

namespace Sys2Proof.Machine

/-- END (R92): nothing changes, and the pc keeps its value. The halted result is `halts` (R17, R75). -/
def execEndFrame (s : State) : Host.Outcome State Fault Refusal := .next s

/-- HBY imm8, Rd (R93). -/
def execHby (imm8 : Byte) (d : Reg) (s : State) : Host.Outcome State Fault Refusal :=
  .next (s.setReg d (withHighByte (s.reg d) imm8)).advancePc

/-- LBY imm8, Rd (R94). -/
def execLby (imm8 : Byte) (d : Reg) (s : State) : Host.Outcome State Fault Refusal :=
  .next (s.setReg d (withLowByte (s.reg d) imm8)).advancePc

end Sys2Proof.Machine
end

