-- ==== Sys2Proof/Machine/LoadStore.lean ====
section
/-! DEFINITION. LOD, STR (42_load_store.md R95 to R97). -/

namespace Sys2Proof.Machine

/-- LOD Ra, Rd (R96): the access comes before any write. -/
def execLod (a d : Reg) (s : State) : Host.Outcome State Fault Refusal :=
  afterAccess (memRead (s.effectiveAddress a) s) s fun v => (s.setReg d v).advancePc

/-- STR Ra, Rb (R97): a holds the address, b the value. -/
def execStr (a b : Reg) (s : State) : Host.Outcome State Fault Refusal :=
  afterAccess (memWrite (s.effectiveAddress a) (s.reg b) s) s fun t => t.advancePc

end Sys2Proof.Machine
end

