-- ==== Sys2Proof/Machine/LogicAndShift.lean ====
section
/-! DEFINITION. AND, ORR, XOR, NOT, SHF (44_logic_and_shift.md R106 to R111). -/

namespace Sys2Proof.Machine

/-- AND Ra, Rb -> Rd (R107). -/
def execAnd (a b d : Reg) (s : State) : Host.Outcome State Fault Refusal :=
  .next (s.setReg d (s.reg a &&& s.reg b)).advancePc

/-- ORR Ra, Rb -> Rd (R108). -/
def execOrr (a b d : Reg) (s : State) : Host.Outcome State Fault Refusal :=
  .next (s.setReg d (s.reg a ||| s.reg b)).advancePc

/-- XOR Ra, Rb -> Rd (R109). -/
def execXor (a b d : Reg) (s : State) : Host.Outcome State Fault Refusal :=
  .next (s.setReg d (s.reg a ^^^ s.reg b)).advancePc

/-- NOT Ra, Rd (R110). -/
def execNot (a d : Reg) (s : State) : Host.Outcome State Fault Refusal :=
  .next (s.setReg d (~~~(s.reg a))).advancePc

/-- SHF Ra, L|R, k, Rd (R111): C is written. V unchanged is a DESIGN CHOICE of the spec (D8), unsafe; log 9. -/
def execShf (a : Reg) (dir : ShiftDir) (amount : Nat) (d : Reg) (s : State) : Host.Outcome State Fault Refusal :=
  .next ((s.setCarry (shiftCarry (s.reg a) dir amount)).setReg d (shiftResult (s.reg a) dir amount)).advancePc

end Sys2Proof.Machine
end

