-- ==== Sys2Proof/Machine/Dispatch.lean ====
section
/-! DEFINITION. The execute phase: one arm per decoded variant, no fall-through (40_engine.md R77). -/

namespace Sys2Proof.Machine

def exec (i : Instr) (s : State) : Host.Outcome State Fault Refusal :=
  match i with
  | .endFrame => Sys2Proof.Machine.execEndFrame s
  | .hby imm8 d => Sys2Proof.Machine.execHby imm8 d s
  | .lby imm8 d => Sys2Proof.Machine.execLby imm8 d s
  | .lod a d => Sys2Proof.Machine.execLod a d s
  | .str a b => Sys2Proof.Machine.execStr a b s
  | .add a b d => Sys2Proof.Machine.execAdd a b d s
  | .sub a b d => Sys2Proof.Machine.execSub a b d s
  | .adi a imm4 d => Sys2Proof.Machine.execAdi a imm4 d s
  | .sbi a imm4 d => Sys2Proof.Machine.execSbi a imm4 d s
  | .and a b d => Sys2Proof.Machine.execAnd a b d s
  | .orr a b d => Sys2Proof.Machine.execOrr a b d s
  | .xor a b d => Sys2Proof.Machine.execXor a b d s
  | .not a d => Sys2Proof.Machine.execNot a d s
  | .shf a dir amount d => Sys2Proof.Machine.execShf a dir amount d s
  | .brv a b n z p => Sys2Proof.Machine.execBrv a b n z p s
  | .brf b v cy => Sys2Proof.Machine.execBrf b v cy s

end Sys2Proof.Machine
end

