-- ==== Sys2Proof/Machine/Step.lean ====
section
/-! DEFINITION. One step of the core: `step()` of 40_engine.md R75, R79. -/

namespace Sys2Proof.Machine

/-- `step()`: fetch the decoded instruction at the pc and execute it (R75). The fetch never faults (R76). A faulted
instance accepts no step (60_exceptions.md R121). The halted result is `stepCommand`'s reply (log 14). -/
def step (s : State) : Host.Outcome State Fault Refusal :=
  match s.fault with
  | some r => .fault (.instanceFaulted r)
  | none => exec s.fetched s

/-- The state with the word whose low `nbits` bits are those of w (the bits above are 0) in program memory at the pc, and no
fault recorded, so that the next step executes it. It stands for loading a program (log 4, log 15). -/
def State.withFetchWord (s : State) (nbits w : Nat) : State := s.loadAtPc (BitVec.ofNat 16 (w % 2 ^ nbits))

end Sys2Proof.Machine
end

