-- ==== Sys2Proof/Machine/Frame.lean ====
section
/-! DEFINITION. The step command's reply, the run loop and the I/O swap controller (40_engine.md R75 to R88). -/

namespace Sys2Proof.Machine

/-- The halted result of a step: true exactly when the executed instruction is END (40_engine.md R75, R92). -/
def halts : Instr → Bool
  | .endFrame => true
  | .hby _ _ => false
  | .lby _ _ => false
  | .lod _ _ => false
  | .str _ _ => false
  | .add _ _ _ => false
  | .sub _ _ _ => false
  | .adi _ _ _ => false
  | .sbi _ _ _ => false
  | .and _ _ _ => false
  | .orr _ _ _ => false
  | .xor _ _ _ => false
  | .not _ _ => false
  | .shf _ _ _ _ => false
  | .brv _ _ _ _ _ => false
  | .brf _ _ _ => false

/-- How a step command ends (40_engine.md R91). -/
inductive StepReply where
  /-- One instruction was executed; true when it was END. -/
  | halted (h : Bool)
  /-- The instruction raised a fault (60_exceptions.md R120). -/
  | raised (r : FaultRecord)
deriving DecidableEq, Repr

/-- The reply of a step from s to t. -/
def stepReply (s t : State) : StepReply :=
  match t.fault with
  | some r => .raised r
  | none => .halted (halts s.fetched)

/-- The step command: the step with its reply (40_engine.md R75, R91). -/
def stepCommand (s : State) : Host.Outcome (StepReply × State) Fault Refusal :=
  match step s with
  | .next t => .next (stepReply s t, t)
  | .fault r => .fault r
  | .refused r => .refused r

/-- How the run loop ends: the number of steps taken, whether the last one was END, and the state. -/
structure FrameEnd where
  steps : Nat
  halted : Bool
  state : State
deriving DecidableEq, Repr

/-- One more step was taken before the frame's end. -/
def FrameEnd.afterStep (e : FrameEnd) : FrameEnd := { e with steps := e.steps + 1 }

/-- The loop of `run(n)`: at most n steps, until END or a fault (40_engine.md R80, R82, R87). -/
def runLoop : Nat → State → Host.Outcome FrameEnd Fault Refusal
  | 0, s => .next { steps := 0, halted := false, state := s }
  | n + 1, s =>
    match stepCommand s with
    | .next (.halted false, t) =>
      match runLoop n t with
      | .next e => .next e.afterStep
      | .fault r => .fault r
      | .refused r => .refused r
    | .next (.halted true, t) => .next { steps := 1, halted := true, state := t }
    | .next (.raised _, t) => .next { steps := 1, halted := false, state := t }
    | .fault r => .fault r
    | .refused r => .refused r

/-- The frame-sync cell of the active buffer: its word 0 (10_state.md R33). -/
def State.frameSync (s : State) : Word := (s.buffer s.active).readWord 0

/-- `pc <- io[active][0]`, before the first step of a run (40_engine.md R81). -/
def State.syncPc (s : State) : State := s.setPc s.frameSync

/-- The swap: the frame-sync cell is copied into the incoming buffer, then the selector is flipped
(40_engine.md R84). -/
def State.swap (s : State) : State :=
  (s.writeBuffer s.active.other 0 s.frameSync).setActive s.active.other

/-- The 1024 words of a buffer (40_engine.md R85). -/
def bufferWords (m : Memory) : List Word := m.readWords 0 Config.ioWords

/-- How a run command ends (40_engine.md R91). -/
inductive RunReply where
  /-- The words of the buffer that was active during the call (R85). -/
  | buffer (out : List Word)
  /-- A step raised a fault: no swap and no buffer (R87). -/
  | raised (r : FaultRecord)
deriving DecidableEq, Repr

/-- What follows the loop: the swap and the returned buffer, unless a fault was raised (40_engine.md R84, R85,
R87). -/
def finishRun (s : State) : RunReply × State :=
  match s.fault with
  | some r => (.raised r, s)
  | none => (.buffer (bufferWords (s.swap.buffer s.active)), s.swap)

/-- `run(n)`: one frame (40_engine.md R80). A faulted instance accepts no run (60_exceptions.md R121). -/
def runFrame (n : Nat) (s : State) : Host.Outcome (RunReply × State) Fault Refusal :=
  match s.fault with
  | some r => .fault (.instanceFaulted r)
  | none =>
    match runLoop n s.syncPc with
    | .next e => .next (finishRun e.state)
    | .fault r => .fault r
    | .refused r => .refused r

end Sys2Proof.Machine
end

