-- ==== Sys2Proof/Machine/Commands.lean ====
section
/-! DEFINITION. Construction and the host's commands (40_engine.md R89, R90; 60_exceptions.md R116;
70_reset_and_hazards.md R129). -/

namespace Sys2Proof.Machine

/-- Why construction fails; no instance is created (60_exceptions.md R116). -/
inductive ConstructError where
  /-- The program has more than 65536 words. -/
  | programTooLong
  /-- The data has more than 32768 words. -/
  | dataTooLong
  /-- "should be unreachable given internal construction": `construct` never answers it. -/
  | bufferSizeMismatch
deriving DecidableEq, Repr

/-- The error of inputs that are too long: with both too long, either may be reported (60_exceptions.md R118), a
free value of Config (log 11). -/
def lengthError (program data : List Word) : Option ConstructError :=
  if Config.progWords < program.length then
    if Config.romWords < data.length then
      some (if Config.reportsProgramTooLong program data then .programTooLong else .dataTooLong)
    else some .programTooLong
  else if Config.romWords < data.length then some .dataTooLong
  else none

/-- `construct(program, data)`: the images zero-padded, everything else at its reset value
(70_reset_and_hazards.md R129). -/
def construct (program data : List Word) : Except ConstructError State :=
  match lengthError program data with
  | some e => .error e
  | none =>
    .ok ((State.reset.setProg (Memory.loadWords [] 0 program)).setRom (Memory.loadWords [] 0 data))

/-- The word index of an I/O buffer, 0 to 1023 (40_engine.md R89). -/
abbrev IoIndex := Fin Config.ioWords

/-- What the host can see between commands (40_engine.md R90). The data RAM and the inactive buffer are given as
stores, canonical, so equal contents are equal stores. -/
structure Observation where
  regs : Vector Word 16
  pc : Word
  carry : Bool
  overflow : Bool
  ram : Memory
  inactive : Memory
deriving DecidableEq, Repr

/-- Observation changes no state (40_engine.md R90). -/
def observe (s : State) : Observation where
  regs := s.regs
  pc := s.pc
  carry := s.carry
  overflow := s.overflow
  ram := s.ram
  inactive := s.buffer s.active.other

/-- The host reads a word of the inactive buffer (40_engine.md R89). -/
def hostRead (i : IoIndex) (s : State) : Word := (s.buffer s.active.other).readWord i.val

/-- The host writes a word of the inactive buffer (40_engine.md R89). There is no move that touches the active one
(R88, D22; log 13). -/
def hostWrite (i : IoIndex) (v : Word) (s : State) : State := s.writeBuffer s.active.other i.val v

/-- The host's interactions with an instance (40_engine.md R89). -/
inductive Command where
  | step
  | run (n : Nat)
  | hostRead (i : IoIndex)
  | hostWrite (i : IoIndex) (v : Word)
  | observe
deriving DecidableEq, Repr

/-- What the host gets back (40_engine.md R89). -/
inductive Reply where
  | step (r : StepReply)
  | run (r : RunReply)
  | word (v : Word)
  | written
  | observed (o : Observation)
deriving DecidableEq, Repr

/-- The step command as a host command. -/
def performStep (s : State) : Host.Outcome (Reply × State) Fault Refusal :=
  match stepCommand s with
  | .next (r, t) => .next (.step r, t)
  | .fault r => .fault r
  | .refused r => .refused r

/-- The run command as a host command. -/
def performRun (n : Nat) (s : State) : Host.Outcome (Reply × State) Fault Refusal :=
  match runFrame n s with
  | .next (r, t) => .next (.run r, t)
  | .fault r => .fault r
  | .refused r => .refused r

/-- One host command, one atomic transaction on the state (00_scope.md R6, 40_engine.md R89). A faulted instance
accepts no step and no run, and can still be observed (60_exceptions.md R121); log 12. -/
def perform (c : Command) (s : State) : Host.Outcome (Reply × State) Fault Refusal :=
  match c with
  | .step => performStep s
  | .run n => performRun n s
  | .hostRead i => .next (.word (hostRead i s), s)
  | .hostWrite i v => .next (.written, hostWrite i v s)
  | .observe => .next (.observed (observe s), s)

end Sys2Proof.Machine
end

