-- ==== Sys2Proof/Safety.lean ====
section
/-! DEFINITION. The terms claims use: which state is well formed, which parts two states share, which steps raise no
fault. -/

namespace Sys2Proof.Machine

/-- The five stores of a state (10_state.md R18). -/
inductive Store where
  | prog
  | rom
  | ram
  | io (k : Bank)
deriving DecidableEq, Repr

/-- The contents of a store. -/
def State.store (s : State) : Store → Memory
  | .prog => s.prog
  | .rom => s.rom
  | .ram => s.ram
  | .io k => s.buffer k

/-- The number of words of a store (00_scope.md R7). -/
def Store.words : Store → Nat
  | .prog => Config.progWords
  | .rom => Config.romWords
  | .ram => Config.ramWords
  | .io _ => Config.ioWords

/-- The word at index i of a store: the model's read of the smallest unit of memory (20_memory.md R49). -/
def State.word (s : State) (k : Store) (i : Nat) : Word := (s.store k).readWord i

/-- The contents of a store are canonical and inside its size. -/
def Memory.wfWithin (m : Memory) (words : Nat) : Bool := m.wf && m.within words

/-- Every store is canonical and inside its size (10_state.md R19, R35, R37, R38). -/
def State.wf (s : State) : Bool :=
  s.prog.wfWithin Config.progWords && s.rom.wfWithin Config.romWords && s.ram.wfWithin Config.ramWords &&
    s.io1.wfWithin Config.ioWords && s.io2.wfWithin Config.ioWords

/-- Every word of every store reads the same in both states. -/
def SameMemory (s t : State) : Prop := ∀ (k : Store) (i : Nat), t.word k i = s.word k i

/-- Every word of every store, but word `i` of store `k`, reads the same in both states. -/
def SameMemoryBut (k : Store) (i : Nat) (s t : State) : Prop :=
  ∀ (k' : Store) (i' : Nat), ¬(k' = k ∧ i' = i) → t.word k' i' = s.word k' i'

/-- Both flags are the same. -/
def SameFlags (s t : State) : Prop := t.carry = s.carry ∧ t.overflow = s.overflow

/-- The selector and the fault record are the same. -/
def SameControl (s t : State) : Prop := t.active = s.active ∧ t.fault = s.fault

/-- Every register is the same. -/
def SameRegs (s t : State) : Prop := ∀ r : Reg, t.reg r = s.reg r

/-- Every register but d is the same. -/
def SameRegsBut (d : Reg) (s t : State) : Prop := ∀ r : Reg, r ≠ d → t.reg r = s.reg r

/-- A step touched nothing but the pc and register d. -/
def OnlyRegAndPc (d : Reg) (s t : State) : Prop :=
  SameRegsBut d s t ∧ SameFlags s t ∧ SameMemory s t ∧ SameControl s t

/-- A step touched nothing but the pc. -/
def OnlyPc (s t : State) : Prop := SameRegs s t ∧ SameFlags s t ∧ SameMemory s t ∧ SameControl s t

/-- A step raised the fault r and touched nothing else (60_exceptions.md R119, R121). -/
def OnlyFault (r : FaultRecord) (s t : State) : Prop :=
  t.fault = some r ∧ t.pc = s.pc ∧ SameRegs s t ∧ SameFlags s t ∧ SameMemory s t ∧ t.active = s.active

/-- The state with other contents in the inactive buffer (10_state.md R32). -/
def State.withInactive (s : State) (m : Memory) : State := s.setBuffer s.active.other m

/-- The register an instruction writes (10_state.md R22). -/
def destReg : Instr → Option Reg
  | .endFrame => none
  | .hby _ d => some d
  | .lby _ d => some d
  | .lod _ d => some d
  | .str _ _ => none
  | .add _ _ d => some d
  | .sub _ _ d => some d
  | .adi _ _ d => some d
  | .sbi _ _ d => some d
  | .and _ _ d => some d
  | .orr _ _ d => some d
  | .xor _ _ d => some d
  | .not _ d => some d
  | .shf _ _ _ d => some d
  | .brv _ _ _ _ _ => none
  | .brf _ _ _ => none

/-- The instruction writes both flags (10_state.md R28). -/
def writesBothFlags (i : Instr) : Bool :=
  match i.opcode with
  | .add | .sub | .adi | .sbi => true
  | .endFrame | .hby | .lby | .lod | .str | .and | .orr | .xor | .not | .shf | .brv | .brf => false

/-- The instruction writes C (10_state.md R28). -/
def writesCarry (i : Instr) : Bool := writesBothFlags i || decide (i.opcode = .shf)

/-- The instruction advances the pc by one when it raises no fault (10_state.md R25). -/
def advances (i : Instr) : Bool :=
  match i.opcode with
  | .endFrame | .brv | .brf => false
  | .hby | .lby | .lod | .str | .add | .sub | .adi | .sbi | .and | .orr | .xor | .not | .shf => true

/-- The next step raises no fault: the access of a LOD or STR has a store that takes it (60_exceptions.md R115). -/
def accessOk (i : Instr) (s : State) : Bool :=
  match i with
  | .lod a _ => decide ((s.reg a).toNat < Config.ioLimit)
  | .str a _ => decide (Config.ramBase ≤ (s.reg a).toNat) && decide ((s.reg a).toNat < Config.ioLimit)
  | .endFrame => true
  | .hby _ _ => true
  | .lby _ _ => true
  | .add _ _ _ => true
  | .sub _ _ _ => true
  | .adi _ _ _ => true
  | .sbi _ _ _ => true
  | .and _ _ _ => true
  | .orr _ _ _ => true
  | .xor _ _ _ => true
  | .not _ _ => true
  | .shf _ _ _ _ => true
  | .brv _ _ _ _ _ => true
  | .brf _ _ _ => true

end Sys2Proof.Machine
end

