-- ==== Sys2Proof/Certificates/Slice0/Obligations.lean ====
section
/-! DEFINITION. The statements for the provers, in the order of the spec's files: encoding, step, the instruction
families, whole-machine rules, invariants, the run loop and the swap, construction and the host. The log entries named
in the docstrings are the points where the spec states its own decision and the model follows it. -/

open Sys2Proof Sys2Proof.Machine

/-! ## Encoding (30_encoding.md) -/

/-- Decode and encode agree on every well-formed instruction (30_encoding.md R63, R74). The opcode numbers inside 5..8
and 9..B and the zeros of unused fields are the spec's decisions D13 and D24 (logs 10, 19). -/
def Obligations.DecodeEncodeRoundTrip : Prop :=
  ∀ i : Instr, i.wellFormed = true → decode (encode i) = i

/-- Encoding what a word decodes to gives the word with the bits its instruction does not use cleared (R71, R74;
logs 10, 19). -/
def Obligations.EncodeDecodeClearsUnusedBits : Prop :=
  ∀ w : Word, encode (decode w) = w &&& (opcodeOf (fieldOp w)).usedBits

/-- Two words decode to the same variant exactly when they agree on the bits that the first one's instruction uses
(30_encoding.md R71, derived there from R63). -/
def Obligations.UnusedFieldsDoNotMatter : Prop :=
  ∀ w w' : Word, decode w = decode w' ↔
    w &&& (opcodeOf (fieldOp w)).usedBits = w' &&& (opcodeOf (fieldOp w)).usedBits

/-- Every word decodes to a well-formed variant: in particular no shift amount is 0 or above 8 (30_encoding.md R66,
R70). -/
def Obligations.EveryWordDecodesWellFormed : Prop :=
  ∀ w : Word, (decode w).wellFormed = true

/-- The decoder's table, row by row, for every value of the three operand fields (30_encoding.md R63 to R69). The
opcode numbers inside 5..8 and 9..B are the spec's decision D13 (log 10). -/
def Obligations.DecodesEveryRowOfTheTable : Prop :=
  ∀ a b c : Nat, a < 16 → b < 16 → c < 16 →
    let w (op : Nat) : Word := BitVec.ofNat 16 (op * 4096 + a * 256 + b * 16 + c)
    let r (n : Nat) : Reg := Fin.ofNat 16 n
    decode (w 0x0) = .endFrame ∧
    decode (w 0x1) = .hby (BitVec.ofNat 8 (16 * a + b)) (r c) ∧
    decode (w 0x2) = .lby (BitVec.ofNat 8 (16 * a + b)) (r c) ∧
    decode (w 0x3) = .lod (r a) (r c) ∧
    decode (w 0x4) = .str (r a) (r b) ∧
    decode (w 0x5) = .add (r a) (r b) (r c) ∧
    decode (w 0x6) = .sub (r a) (r b) (r c) ∧
    decode (w 0x7) = .adi (r a) (BitVec.ofNat 4 b) (r c) ∧
    decode (w 0x8) = .sbi (r a) (BitVec.ofNat 4 b) (r c) ∧
    decode (w 0x9) = .and (r a) (r b) (r c) ∧
    decode (w 0xA) = .orr (r a) (r b) (r c) ∧
    decode (w 0xB) = .xor (r a) (r b) (r c) ∧
    decode (w 0xC) = .not (r a) (r c) ∧
    decode (w 0xD) = .shf (r a) (if 8 ≤ b then .right else .left) (b % 8 + 1) (r c) ∧
    decode (w 0xE) = .brv (r a) (r b) (decide (c / 4 % 2 = 1)) (decide (c / 2 % 2 = 1)) (decide (c % 2 = 1)) ∧
    decode (w 0xF) = .brf (r b) (decide (c / 2 % 2 = 1)) (decide (c % 2 = 1))

/-- Words of the spec's own test vectors decode to the instructions it names (95_test_vectors.md: 0x4A20 in section 1,
T1; 0x1AB3 in 2.1, 0x3102 in 2.2, 0xC104 in 2.4, 0xE125 and 0xF721 in 2.6; 0xD1B4 in section 3, P2). -/
def Obligations.SampleWordsDecode : Prop :=
  decode 0x1AB3#16 = .hby 0xAB#8 3 ∧ decode 0x3102#16 = .lod 1 2 ∧ decode 0x4A20#16 = .str 10 2 ∧
  decode 0xC104#16 = .not 1 4 ∧ decode 0xD1B4#16 = .shf 1 .right 4 4 ∧
  decode 0xE125#16 = .brv 1 2 true false true ∧ decode 0xF721#16 = .brf 2 false true

/-! ## The step (40_engine.md) -/

/-- On an instance without a fault, the step at a pc whose word decodes to i is exec of i (40_engine.md R75, R76). The
step adds nothing around it. -/
def Obligations.StepRunsTheDecodedInstruction : Prop :=
  ∀ (s : State) (i : Instr), s.fault = none → decode (s.word .prog s.pc.toNat) = i → step s = exec i s

/-- Every step of an instance without a fault answers a next state (fetch and decode never stop it, R76), and the step
command answers halted = true exactly for END, halted = false for every other instruction that raises no fault, and the
fault otherwise (40_engine.md R75, R91). That a raised fault is recorded in the next state is D15 and log 3. -/
def Obligations.StepReportsHaltedExactlyForEnd : Prop :=
  ∀ s : State, s.fault = none → ∃ t, step s = .next t ∧
    ((∃ r, t.fault = some r ∧ stepCommand s = .next (.raised r, t)) ∨
     (t.fault = none ∧
       stepCommand s = .next (.halted (decide (decode (s.word .prog s.pc.toNat) = .endFrame)), t)))

/-- A faulted instance accepts no further step or run (60_exceptions.md R121, the spec's decision D15; log 12). -/
def Obligations.FaultedInstanceAcceptsNoStepOrRun : Prop :=
  ∀ (s : State) (r : FaultRecord) (n : Nat), s.fault = some r →
    step s = .fault (.instanceFaulted r) ∧ stepCommand s = .fault (.instanceFaulted r) ∧
    runFrame n s = .fault (.instanceFaulted r) ∧ perform .step s = .fault (.instanceFaulted r) ∧
    perform (.run n) s = .fault (.instanceFaulted r)

/-! ## END, HBY, LBY (41_halt_and_byte_load.md) -/

/-- END completes and changes nothing, the pc included; any word with opcode 0 is END, and its step answers
halted = true (41_halt_and_byte_load.md R92). -/
def Obligations.EndChangesNothing : Prop :=
  ∀ s : State, exec .endFrame s = .next s ∧
    (s.fault = none → fieldOp (s.word .prog s.pc.toNat) = 0#4 → stepCommand s = .next (.halted true, s))

/-- HBY completes: bits 15..8 of the destination become the immediate, the rest is kept. Keeping the low byte is the
spec's decision D1 (log 6). -/
def Obligations.HbyWritesTheHighByte : Prop :=
  ∀ (imm8 : Byte) (d : Reg) (s : State), ∃ t, exec (.hby imm8 d) s = .next t ∧
    (t.reg d).toNat = imm8.toNat * 256 + (s.reg d).toNat % 256 ∧ t.pc = s.pc + 1#16 ∧ OnlyRegAndPc d s t

/-- LBY completes: bits 7..0 of the destination become the immediate, the rest is kept. Keeping the high byte is the
spec's decision D2 (log 6). -/
def Obligations.LbyWritesTheLowByte : Prop :=
  ∀ (imm8 : Byte) (d : Reg) (s : State), ∃ t, exec (.lby imm8 d) s = .next t ∧
    (t.reg d).toNat = (s.reg d).toNat / 256 * 256 + imm8.toNat ∧ t.pc = s.pc + 1#16 ∧ OnlyRegAndPc d s t

/-- HBY and LBY into one register, in either order, build any 16-bit constant (41_halt_and_byte_load.md R93, derived
there; decisions D1, D2, log 6). -/
def Obligations.BytePairBuildsAnyConstant : Prop :=
  ∀ (hi lo : Byte) (d : Reg) (s : State),
    (∃ t u, exec (.hby hi d) s = .next t ∧ exec (.lby lo d) t = .next u ∧
      u.reg d = hi ++ lo ∧ u.pc = s.pc + 2#16 ∧ OnlyRegAndPc d s u) ∧
    (∃ t u, exec (.lby lo d) s = .next t ∧ exec (.hby hi d) t = .next u ∧
      u.reg d = hi ++ lo ∧ u.pc = s.pc + 2#16 ∧ OnlyRegAndPc d s u)

/-! ## The address decoder, LOD, STR (20_memory.md, 42_load_store.md) -/

/-- The read path: ROM, RAM, active I/O buffer or ReadOutOfBounds, by range (20_memory.md R43). The offset of a RAM
address is its distance from 0x8000, that of an I/O address its distance from 0xF800. -/
def Obligations.MemReadByRange : Prop :=
  ∀ (addr : Word) (s : State), memRead addr s =
    if addr.toNat < 0x8000 then .ok (s.word .rom addr.toNat)
    else if addr.toNat < 0xF800 then .ok (s.word .ram (addr.toNat - 0x8000))
    else if addr.toNat < 0xFC00 then .ok (s.word (.io s.active) (addr.toNat - 0xF800))
    else .error (.readOutOfBounds addr)

/-- The write path: WriteToRom, one RAM word, one word of the active I/O buffer, or WriteOutOfBounds, by range; a write
changes only the one word it names (20_memory.md R44). -/
def Obligations.MemWriteByRange : Prop :=
  ∀ (addr v : Word) (s : State),
    (addr.toNat < 0x8000 → memWrite addr v s = .error (.writeToRom addr)) ∧
    (0x8000 ≤ addr.toNat → addr.toNat < 0xF800 → ∃ t, memWrite addr v s = .ok t ∧
      t.word .ram (addr.toNat - 0x8000) = v ∧ SameMemoryBut .ram (addr.toNat - 0x8000) s t ∧
      t.pc = s.pc ∧ SameRegs s t ∧ SameFlags s t ∧ SameControl s t) ∧
    (0xF800 ≤ addr.toNat → addr.toNat < 0xFC00 → ∃ t, memWrite addr v s = .ok t ∧
      t.word (.io s.active) (addr.toNat - 0xF800) = v ∧
      SameMemoryBut (.io s.active) (addr.toNat - 0xF800) s t ∧
      t.pc = s.pc ∧ SameRegs s t ∧ SameFlags s t ∧ SameControl s t) ∧
    (0xFC00 ≤ addr.toNat → memWrite addr v s = .error (.writeOutOfBounds addr))

/-- The four ranges have no gap and no overlap: an address below 0xFC00 reaches a word no other address reaches, at an
offset inside its store, and one from 0xFC00 on reaches none (20_memory.md R41, and R42, derived there). -/
def Obligations.MappedAddressesReachDistinctWords : Prop :=
  (∀ addr addr' : Word, addr.toNat < 0xFC00 → route addr = route addr' → addr = addr') ∧
  ∀ addr : Word,
    match route addr with
    | .rom k => k < 32768 ∧ addr.toNat < 0x8000
    | .ram k => k < 30720 ∧ 0x8000 ≤ addr.toNat ∧ addr.toNat < 0xF800
    | .io k => k < 1024 ∧ 0xF800 ≤ addr.toNat ∧ addr.toNat < 0xFC00
    | .unmapped => 0xFC00 ≤ addr.toNat

/-- LOD completes at every address below 0xFC00: the destination becomes the addressed word of ROM, RAM or the active
I/O buffer (42_load_store.md R96). -/
def Obligations.LodLoadsTheAddressedWord : Prop :=
  ∀ (a d : Reg) (s : State), (s.effectiveAddress a).toNat < 0xFC00 → ∃ t, exec (.lod a d) s = .next t ∧
    t.reg d =
      (if (s.effectiveAddress a).toNat < 0x8000 then s.word .rom (s.effectiveAddress a).toNat
       else if (s.effectiveAddress a).toNat < 0xF800 then s.word .ram ((s.effectiveAddress a).toNat - 0x8000)
       else s.word (.io s.active) ((s.effectiveAddress a).toNat - 0xF800)) ∧
    t.pc = s.pc + 1#16 ∧ OnlyRegAndPc d s t

/-- LOD from 0xFC00 on raises ReadOutOfBounds with the address and has no other effect (42_load_store.md R96). That the
raised fault is recorded in the next state is D15 and the model's log 3. -/
def Obligations.LodOutOfBoundsRaises : Prop :=
  ∀ (a d : Reg) (s : State), 0xFC00 ≤ (s.effectiveAddress a).toNat → ∃ t, exec (.lod a d) s = .next t ∧
    OnlyFault (.readOutOfBounds (s.effectiveAddress a)) s t

/-- STR completes at every address from 0x8000 to 0xFBFF: the addressed word of RAM or of the active I/O buffer becomes
the value register, and nothing else changes but the pc (42_load_store.md R97). -/
def Obligations.StrStoresOneWord : Prop :=
  ∀ (a b : Reg) (s : State), 0x8000 ≤ (s.effectiveAddress a).toNat → (s.effectiveAddress a).toNat < 0xFC00 →
    ∃ t, exec (.str a b) s = .next t ∧ t.pc = s.pc + 1#16 ∧ SameRegs s t ∧ SameFlags s t ∧ SameControl s t ∧
      ((s.effectiveAddress a).toNat < 0xF800 →
        t.word .ram ((s.effectiveAddress a).toNat - 0x8000) = s.reg b ∧
        SameMemoryBut .ram ((s.effectiveAddress a).toNat - 0x8000) s t) ∧
      (0xF800 ≤ (s.effectiveAddress a).toNat →
        t.word (.io s.active) ((s.effectiveAddress a).toNat - 0xF800) = s.reg b ∧
        SameMemoryBut (.io s.active) ((s.effectiveAddress a).toNat - 0xF800) s t)

/-- STR below 0x8000 raises WriteToRom, from 0xFC00 on WriteOutOfBounds, with the address, and has no other effect
(42_load_store.md R97). That the raised fault is recorded in the next state is D15 and the model's log 3. -/
def Obligations.StrToRomOrOutOfBoundsRaises : Prop :=
  ∀ (a b : Reg) (s : State),
    ((s.effectiveAddress a).toNat < 0x8000 → ∃ t, exec (.str a b) s = .next t ∧
      OnlyFault (.writeToRom (s.effectiveAddress a)) s t) ∧
    (0xFC00 ≤ (s.effectiveAddress a).toNat → ∃ t, exec (.str a b) s = .next t ∧
      OnlyFault (.writeOutOfBounds (s.effectiveAddress a)) s t)

/-- After a store that raised no fault, a read of the same address gives the stored value and a read of any other
address gives what it gave before (20_memory.md R55, decision D20, log 22). -/
def Obligations.LoadReturnsTheMostRecentStore : Prop :=
  ∀ (a b : Reg) (s t : State), s.fault = none → exec (.str a b) s = .next t → t.fault = none →
    ∀ addr : Word, memRead addr t = if addr = s.reg a then .ok (s.reg b) else memRead addr s

/-! ## Arithmetic (43_arithmetic.md) -/

/-- The adder: truncated sum, carry from the unbounded sum, overflow by the sign rule; it writes its destination
register and the two flags and nothing else (43_arithmetic.md R98). -/
def Obligations.BasicAddFollowsTheAdderRule : Prop :=
  ∀ (p q : Word) (cin : Bool) (d : Reg) (s : State),
    let sum := p.toNat + q.toNat + (if cin then 1 else 0)
    let t := basicAdd p q cin d s
    t.reg d = BitVec.ofNat 16 sum ∧ t.carry = decide (65536 ≤ sum) ∧
    (t.overflow = true ↔
      (32768 ≤ p.toNat ∧ 32768 ≤ q.toNat ∧ sum % 65536 < 32768) ∨
      (p.toNat < 32768 ∧ q.toNat < 32768 ∧ 32768 ≤ sum % 65536)) ∧
    t.pc = s.pc ∧ SameRegsBut d s t ∧ SameMemory s t ∧ SameControl s t

/-- ADD and ADI complete: the sum modulo 65536, C exactly when the unsigned sum is at least 65536, V exactly when the
signed sum is outside [-32768, 32767] (43_arithmetic.md R100, derived there). Carry-in 0 is the spec's decision D7
(log 8). -/
def Obligations.AddAndAdiAddIntegers : Prop :=
  ∀ (a b d : Reg) (imm4 : Nibble) (s : State),
    (∃ t, exec (.add a b d) s = .next t ∧
      (t.reg d).toNat = ((s.reg a).toNat + (s.reg b).toNat) % 65536 ∧
      t.carry = decide (65536 ≤ (s.reg a).toNat + (s.reg b).toNat) ∧
      t.overflow = decide ((s.reg a).toInt + (s.reg b).toInt < -32768 ∨ 32767 < (s.reg a).toInt + (s.reg b).toInt) ∧
      t.pc = s.pc + 1#16 ∧ SameRegsBut d s t ∧ SameMemory s t ∧ SameControl s t) ∧
    (∃ t, exec (.adi a imm4 d) s = .next t ∧
      (t.reg d).toNat = ((s.reg a).toNat + imm4.toNat) % 65536 ∧
      t.carry = decide (65536 ≤ (s.reg a).toNat + imm4.toNat) ∧
      t.overflow = decide (32767 < (s.reg a).toInt + imm4.toNat) ∧
      t.pc = s.pc + 1#16 ∧ SameRegsBut d s t ∧ SameMemory s t ∧ SameControl s t)

/-- SUB and SBI complete: the difference modulo 65536, C exactly when there is no borrow, V exactly when the signed
difference is outside [-32768, 32767] (43_arithmetic.md R99 and R100, derived there). -/
def Obligations.SubAndSbiSubtractIntegers : Prop :=
  ∀ (a b d : Reg) (imm4 : Nibble) (s : State),
    (∃ t, exec (.sub a b d) s = .next t ∧
      (t.reg d).toNat = ((s.reg a).toNat + 65536 - (s.reg b).toNat) % 65536 ∧
      t.carry = decide ((s.reg b).toNat ≤ (s.reg a).toNat) ∧
      t.overflow = decide ((s.reg a).toInt - (s.reg b).toInt < -32768 ∨ 32767 < (s.reg a).toInt - (s.reg b).toInt) ∧
      t.pc = s.pc + 1#16 ∧ SameRegsBut d s t ∧ SameMemory s t ∧ SameControl s t) ∧
    (∃ t, exec (.sbi a imm4 d) s = .next t ∧
      (t.reg d).toNat = ((s.reg a).toNat + 65536 - imm4.toNat) % 65536 ∧
      t.carry = decide (imm4.toNat ≤ (s.reg a).toNat) ∧
      t.overflow = decide ((s.reg a).toInt - imm4.toNat < -32768) ∧
      t.pc = s.pc + 1#16 ∧ SameRegsBut d s t ∧ SameMemory s t ∧ SameControl s t)

/-! ## Logic and shift (44_logic_and_shift.md) -/

/-- AND, ORR, XOR and NOT complete, compute their result bit by bit and leave both flags unchanged
(44_logic_and_shift.md R106). -/
def Obligations.BitwiseOpsWorkBitByBit : Prop :=
  ∀ (a b d : Reg) (s : State),
    (∃ t, exec (.and a b d) s = .next t ∧
      (∀ k < 16, (t.reg d).getLsbD k = ((s.reg a).getLsbD k && (s.reg b).getLsbD k)) ∧
      t.pc = s.pc + 1#16 ∧ OnlyRegAndPc d s t) ∧
    (∃ t, exec (.orr a b d) s = .next t ∧
      (∀ k < 16, (t.reg d).getLsbD k = ((s.reg a).getLsbD k || (s.reg b).getLsbD k)) ∧
      t.pc = s.pc + 1#16 ∧ OnlyRegAndPc d s t) ∧
    (∃ t, exec (.xor a b d) s = .next t ∧
      (∀ k < 16, (t.reg d).getLsbD k = ((s.reg a).getLsbD k ^^ (s.reg b).getLsbD k)) ∧
      t.pc = s.pc + 1#16 ∧ OnlyRegAndPc d s t) ∧
    (∃ t, exec (.not a d) s = .next t ∧
      (∀ k < 16, (t.reg d).getLsbD k = !(s.reg a).getLsbD k) ∧
      t.pc = s.pc + 1#16 ∧ OnlyRegAndPc d s t)

/-- SHF completes for every amount an encoding admits: left is a multiplication by 2^k modulo 65536 with C the bit
16 - k, right a division by 2^k with C the bit k - 1, both of the value before the shift (44_logic_and_shift.md R111).
V unchanged is the spec's decision D8 (log 9). -/
def Obligations.ShfShiftsAndCarries : Prop :=
  ∀ (a : Reg) (k : Nat) (d : Reg) (s : State), 1 ≤ k → k ≤ 8 →
    (∃ t, exec (.shf a .left k d) s = .next t ∧
      (t.reg d).toNat = (s.reg a).toNat * 2 ^ k % 65536 ∧
      t.carry = decide ((s.reg a).toNat / 2 ^ (16 - k) % 2 = 1) ∧ t.overflow = s.overflow ∧
      t.pc = s.pc + 1#16 ∧ SameRegsBut d s t ∧ SameMemory s t ∧ SameControl s t) ∧
    (∃ t, exec (.shf a .right k d) s = .next t ∧
      (t.reg d).toNat = (s.reg a).toNat / 2 ^ k ∧
      t.carry = decide ((s.reg a).toNat / 2 ^ (k - 1) % 2 = 1) ∧ t.overflow = s.overflow ∧
      t.pc = s.pc + 1#16 ∧ SameRegsBut d s t ∧ SameMemory s t ∧ SameControl s t)

/-! ## Branches (45_branch.md) -/

/-- BRV completes: to the target register's value when a selected class (negative, zero, positive) holds of the value
register, else pc + 1; nothing else changes (45_branch.md R113). The register reading of field a, the union and the
not-taken advance are the spec's decisions D3, D4, D6 (log 7). -/
def Obligations.BrvBranchesOnTheSelectedClasses : Prop :=
  ∀ (a b : Reg) (n z p : Bool) (s : State), ∃ t, exec (.brv a b n z p) s = .next t ∧ OnlyPc s t ∧
    t.pc = (if (n = true ∧ (s.reg a).toInt < 0) ∨ (z = true ∧ (s.reg a).toInt = 0) ∨ (p = true ∧ 0 < (s.reg a).toInt)
      then s.reg b else s.pc + 1#16)

/-- BRF completes: to the target register's value when a selected flag is set, else pc + 1; nothing else changes
(45_branch.md R114). The union and the not-taken advance are the spec's decisions D5, D6 (log 7). -/
def Obligations.BrfBranchesOnTheSelectedFlags : Prop :=
  ∀ (b : Reg) (v cy : Bool) (s : State), ∃ t, exec (.brf b v cy) s = .next t ∧ OnlyPc s t ∧
    t.pc = (if (v = true ∧ s.overflow = true) ∨ (cy = true ∧ s.carry = true) then s.reg b else s.pc + 1#16)

/-! ## Rules of the whole machine (10_state.md, 60_exceptions.md) -/

/-- A raised fault is precise: whatever the instruction, the record is all that changes (60_exceptions.md R119; the
record in the next state is D15 and log 3). -/
def Obligations.FaultsArePrecise : Prop :=
  ∀ (s t : State) (r : FaultRecord), step s = .next t → t.fault = some r → OnlyFault r s t

/-- Exactly three faults: LOD from 0xFC00 on, STR below 0x8000, STR from 0xFC00 on, each with the address register's
value; no other instruction raises one (60_exceptions.md R115; the names are the spec's decision D14, log 22). -/
def Obligations.OnlyLodAndStrRaiseFaults : Prop :=
  ∀ (s t : State) (r : FaultRecord), step s = .next t → t.fault = some r →
    (∃ a d, s.fetched = .lod a d ∧ 0xFC00 ≤ (s.reg a).toNat ∧ r = .readOutOfBounds (s.reg a)) ∨
    (∃ a b, s.fetched = .str a b ∧ (s.reg a).toNat < 0x8000 ∧ r = .writeToRom (s.reg a)) ∨
    (∃ a b, s.fetched = .str a b ∧ 0xFC00 ≤ (s.reg a).toNat ∧ r = .writeOutOfBounds (s.reg a))

/-- A run of steps whose every LOD and STR names an address that takes its access never raises a fault
(60_exceptions.md R115). -/
def Obligations.MappedAccessesNeverFault : Prop :=
  ∀ (k : Nat) (s : State), s.fault = none →
    (∀ (j : Nat) (u : State), j < k → Sys2Proof.core.run j s = .next u → accessOk u.fetched u = true) →
    ∃ t : State, Sys2Proof.core.run k s = .next t ∧ t.fault = none

/-- C changes only in a step of ADD, SUB, ADI, SBI or SHF, and V only in one of ADD, SUB, ADI or SBI (10_state.md R28;
SHF leaving V unchanged is the spec's decision D8, log 9). -/
def Obligations.OnlyArithmeticAndShiftWriteFlags : Prop :=
  ∀ s t : State, step s = .next t →
    (t.carry ≠ s.carry → writesCarry s.fetched = true) ∧ (t.overflow ≠ s.overflow → writesBothFlags s.fetched = true)

/-- A step changes no register but the one field c of a register-writing instruction names (10_state.md R22, derived
there). -/
def Obligations.OnlyTheDestinationRegisterChanges : Prop :=
  ∀ (s t : State) (r : Reg), step s = .next t → t.reg r ≠ s.reg r → destReg s.fetched = some r

/-- The pc changes in the four ways of 10_state.md R25. The not-taken advance is the spec's decision D6 (log 7). -/
def Obligations.PcChangesInFourWays : Prop :=
  ∀ s t : State, step s = .next t →
    (advances s.fetched = true → t.fault = none → t.pc = s.pc + 1#16) ∧
    (∀ a b n z p, s.fetched = .brv a b n z p → t.pc = s.reg b ∨ t.pc = s.pc + 1#16) ∧
    (∀ b v cy, s.fetched = .brf b v cy → t.pc = s.reg b ∨ t.pc = s.pc + 1#16) ∧
    (s.fetched = .endFrame ∨ t.fault ≠ none → t.pc = s.pc)

/-- No step changes program memory, the data ROM, the selector or the inactive buffer (10_state.md R32, R35;
20_memory.md R45, R47, R59, derived in part there). -/
def Obligations.StepsKeepProgramRomSelectorAndInactiveBuffer : Prop :=
  ∀ s t : State, step s = .next t →
    t.active = s.active ∧ ∀ i : Nat, t.word .prog i = s.word .prog i ∧ t.word .rom i = s.word .rom i ∧
      t.word (.io s.active.other) i = s.word (.io s.active.other) i

/-- A step neither reads nor writes the inactive buffer: with other contents there it does the same and leaves those
contents (20_memory.md R47, in the spec's reading). -/
def Obligations.InactiveBufferIsInvisibleToAStep : Prop :=
  ∀ (s t : State) (m : Memory), step s = .next t → step (s.withInactive m) = .next (t.withInactive m)

/-- What a run answers does not depend on what the inactive buffer held (20_memory.md R47, in the spec's reading;
40_engine.md R85). -/
def Obligations.RunOutputIgnoresTheInactiveBuffer : Prop :=
  ∀ (n : Nat) (s t : State) (r : RunReply) (m : Memory), runFrame n s = .next (r, t) →
    ∃ t', runFrame n (s.withInactive m) = .next (r, t')

/-! ## Invariants -/

/-- The state after reset is well formed: every store canonical and inside its size (sizes: 10_state.md R35, R37, R38).
The canonical form is the model's own representation (log 1), and that the reset state holds empty images is the model's
choice (log 4). -/
def Obligations.ResetIsWellFormed : Prop := State.reset.wf = true

/-- Every step keeps a well-formed state well formed: no store leaves its canonical form or its size (10_state.md R19,
R35, R37, R38; the form is the model's log 1). -/
def Obligations.StepsKeepWellFormedness : Prop :=
  ∀ s t : State, s.wf = true → step s = .next t → t.wf = true

/-- Construction, when it succeeds, gives a well-formed state (sizes: 10_state.md R35, R37, R38; the form is the model's
log 1). -/
def Obligations.ConstructionIsWellFormed : Prop :=
  ∀ (program data : List Word) (s : State), construct program data = .ok s → s.wf = true

/-- Every host command keeps a well-formed state well formed, whole runs and host writes included (sizes: 10_state.md
R35, R37, R38; the form is the model's log 1). -/
def Obligations.CommandsKeepWellFormedness : Prop :=
  ∀ (c : Command) (s t : State) (r : Reply), s.wf = true → perform c s = .next (r, t) → t.wf = true

/-- No host command changes a word of program memory or of the data ROM after construction (10_state.md R35;
20_memory.md R45). -/
def Obligations.CommandsNeverChangeProgramOrRom : Prop :=
  ∀ (c : Command) (s t : State) (r : Reply), perform c s = .next (r, t) →
    ∀ i : Nat, t.word .prog i = s.word .prog i ∧ t.word .rom i = s.word .rom i

/-- Canonical stores that read the same at every word are the same data (the model's log 1). -/
def Obligations.CanonicalStoresAreEqualWhenTheyReadTheSame : Prop :=
  ∀ m m' : Memory, m.wf = true → m'.wf = true → (∀ i : Nat, m.readWord i = m'.readWord i) → m = m'

/-! ## The run loop and the swap (40_engine.md) -/

/-- A frame executes at most n instructions, and fewer only when an END is executed or a fault is raised; run(0)
executes none; an END that the loop reports is the last step it counted (40_engine.md R82). That a fault was raised is
read from the record in the final state (D15; log 3). That no END before the last step is passed over is
FrameIsIteratedSteps. -/
def Obligations.FramesStayWithinTheirBudget : Prop :=
  (∀ s : State, runLoop 0 s = .next { steps := 0, halted := false, state := s }) ∧
  ∀ (n : Nat) (s : State) (e : FrameEnd), runLoop n s = .next e →
    e.steps ≤ n ∧ (e.steps < n → e.halted = true ∨ e.state.fault ≠ none) ∧
    (e.halted = true → ∃ (k : Nat) (u : State), e.steps = k + 1 ∧ Sys2Proof.core.run k s = .next u ∧ u.fetched = .endFrame)

/-- The loop of a frame is exactly its number of steps of the machine, and no step before the last executed END or
raised a fault (40_engine.md R80). That a step which raises a fault is a step of the machine to a next state is log 3. -/
def Obligations.FrameIsIteratedSteps : Prop :=
  ∀ (n : Nat) (s : State) (e : FrameEnd), runLoop n s = .next e →
    Sys2Proof.core.run e.steps s = .next e.state ∧
    ∀ j < e.steps, ∃ u : State, Sys2Proof.core.run j s = .next u ∧ u.fault = none ∧
      (j + 1 < e.steps → u.fetched ≠ .endFrame)

/-- A run of an instance without a fault ends in one of two ways: with a swap and a returned buffer, or with a fault
and no swap (40_engine.md R91; the record in the state is D15). -/
def Obligations.EveryRunEndsWithSwapOrFault : Prop :=
  ∀ (n : Nat) (s : State), s.fault = none → ∃ r t, runFrame n s = .next (r, t) ∧
    ((∃ out, r = .buffer out ∧ t.fault = none ∧ t.active = s.active.other) ∨
     (∃ f, r = .raised f ∧ t.fault = some f ∧ t.active = s.active))

/-- The swap of a run without a fault, against the state e.state that the loop left: word 0 of the outgoing buffer is
copied into the incoming one, the selector flips, no other word of any store and no register, flag or pc changes, and the
returned value is the 1024 words of the outgoing buffer as the loop left them. So words 1 and on of the incoming buffer
are what they were before the run (40_engine.md R84, R85). That a buffer has 1024 words is the spec's decision D9
(log 16), and the loop's end is read from the record (D15; log 3). -/
def Obligations.RunSwapsTheBuffers : Prop :=
  ∀ (n : Nat) (s t : State) (out : List Word), runFrame n s = .next (.buffer out, t) →
    ∃ e : FrameEnd, runLoop n s.syncPc = .next e ∧ e.state.fault = none ∧
      t.active = s.active.other ∧
      t.word (.io s.active.other) 0 = e.state.word (.io s.active) 0 ∧
      SameMemoryBut (.io s.active.other) 0 e.state t ∧
      (∀ i : Nat, 0 < i → t.word (.io s.active.other) i = s.word (.io s.active.other) i) ∧
      t.pc = e.state.pc ∧ SameRegs e.state t ∧ SameFlags e.state t ∧ t.fault = none ∧
      out.length = 1024 ∧ ∀ i < 1024, out[i]? = some (e.state.word (.io s.active) i)

/-- Two runs of no instruction restore the selector (40_engine.md R86). -/
def Obligations.TwoEmptyRunsRestoreTheSelector : Prop :=
  ∀ s : State, s.fault = none → ∃ r t r' t', runFrame 0 s = .next (r, t) ∧ t.active = s.active.other ∧
    runFrame 0 t = .next (r', t') ∧ t'.active = s.active

/-- A run starts at word 0 of the active buffer: on an instance without a fault it is the loop from the state with the
pc loaded from there, then the swap or the fault. So the pc before the run does not matter, run(0) loads the pc too, and
the run after a frame starts at word 0 of the buffer that frame returned (40_engine.md R80, R81, the consequences derived
there). What follows the loop is RunSwapsTheBuffers and FaultInsideARunSkipsTheSwap. The premise, and that a raised fault
is a record in the loop's end state, are D15 (logs 3, 12). -/
def Obligations.RunStartsAtTheFrameSyncCell : Prop :=
  (∀ s : State, s.syncPc = s.setPc (s.word (.io s.active) 0)) ∧
  (∀ (n : Nat) (s : State), s.fault = none →
    ∃ e, runLoop n (s.setPc (s.word (.io s.active) 0)) = .next e ∧ runFrame n s = .next (finishRun e.state)) ∧
  (∀ (n : Nat) (s : State) (v : Word), runFrame n (s.setPc v) = runFrame n s) ∧
  (∀ s : State, s.fault = none → ∃ r t, runFrame 0 s = .next (r, t) ∧ t.pc = s.word (.io s.active) 0) ∧
  ∀ (n : Nat) (s t : State) (out : List Word), runFrame n s = .next (.buffer out, t) →
    ∃ v, out[0]? = some v ∧ t.syncPc = t.setPc v ∧
      ∀ m : Nat, ∃ e, runLoop m (t.setPc v) = .next e ∧ runFrame m t = .next (finishRun e.state)

/-- A fault inside a run: t is the machine's state after k completed steps from the synchronised start and the faulting
step, so the effects of the steps before it are kept and the faulting one sets the record alone; no swap happens and the
inactive buffer is untouched (40_engine.md R87, decisions D15 and D16; logs 3, 12). -/
def Obligations.FaultInsideARunSkipsTheSwap : Prop :=
  ∀ (n : Nat) (s t : State) (f : FaultRecord), runFrame n s = .next (.raised f, t) →
    t.fault = some f ∧ t.active = s.active ∧
    (∀ i : Nat, t.word (.io s.active.other) i = s.word (.io s.active.other) i) ∧
    ∃ (k : Nat) (u : State), k < n ∧ Sys2Proof.core.run k s.syncPc = .next u ∧ u.fault = none ∧
      step u = .next t ∧ OnlyFault f u t

/-- After k steps, none of them END or a branch and none raising a fault, the pc is p + k modulo 65536
(10_state.md R26). -/
def Obligations.PcAfterNonBranchingSteps : Prop :=
  ∀ (k : Nat) (s t : State), Sys2Proof.core.run k s = .next t → t.fault = none →
    (∀ j < k, ∃ u : State, Sys2Proof.core.run j s = .next u ∧ advances u.fetched = true) →
    t.pc.toNat = (s.pc.toNat + k) % 65536

/-! ## Construction and the host (40_engine.md, 60_exceptions.md, 70_reset_and_hazards.md) -/

/-- The state after reset, component by component (70_reset_and_hazards.md R130). The pc, the flags, the buffers and the
selector are the spec's decisions D10 to D12 (log 5), and the empty images are the model's choice (log 4). -/
def Obligations.ResetValues : Prop :=
  let s := State.reset
  (∀ r : Reg, s.reg r = 0#16) ∧ s.pc = 0#16 ∧ s.carry = false ∧ s.overflow = false ∧
  (∀ (k : Store) (i : Nat), s.word k i = 0#16) ∧ s.active = .one ∧ s.fault = none

/-- Every register is 0 in a constructed instance (10_state.md R21). -/
def Obligations.ConstructedRegistersAreZero : Prop :=
  ∀ (program data : List Word) (s : State), construct program data = .ok s → ∀ r : Reg, s.reg r = 0#16

/-- Construction from images that fit succeeds: program memory and ROM hold the images zero-padded, RAM and both
buffers are 0, and the rest is as after reset (70_reset_and_hazards.md R129; decisions D10 to D12, log 5). -/
def Obligations.ConstructionPlacesTheImages : Prop :=
  ∀ program data : List Word, program.length ≤ 65536 → data.length ≤ 32768 →
    ∃ s, construct program data = .ok s ∧
      (∀ i : Nat, s.word .prog i = program[i]?.getD 0#16) ∧ (∀ i : Nat, s.word .rom i = data[i]?.getD 0#16) ∧
      (∀ i : Nat, s.word .ram i = 0#16) ∧ (∀ (k : Bank) (i : Nat), s.word (.io k) i = 0#16) ∧
      (∀ r : Reg, s.reg r = 0#16) ∧ s.pc = 0#16 ∧ s.carry = false ∧ s.overflow = false ∧
      s.active = .one ∧ s.fault = none

/-- Construction fails exactly when an input is too long, each error names an input that is, and BufferSizeMismatch
never arises, as the spec says of its own construction (60_exceptions.md R116; log 21). With both too long the error is
one of the two, and which is free (R118, the spec's decision D23; log 11). -/
def Obligations.ConstructionErrors : Prop :=
  ∀ program data : List Word,
    ((65536 < program.length ∨ 32768 < data.length) ↔ ∃ e, construct program data = .error e) ∧
    (construct program data = .error .programTooLong → 65536 < program.length) ∧
    (construct program data = .error .dataTooLong → 32768 < data.length) ∧
    construct program data ≠ .error .bufferSizeMismatch

/-- A host write changes one word of the inactive buffer, no data address sees it, and a host read gives it back
(40_engine.md R89; 20_memory.md R47, in the spec's reading). That it completes on a faulted instance too is the model's
choice (log 12), beside R87 and 60_exceptions.md R121; that the host has no other move on a buffer is D22 (log 13). -/
def Obligations.HostWritesOnlyTheInactiveBuffer : Prop :=
  ∀ (i : IoIndex) (v : Word) (s : State), ∃ t, perform (.hostWrite i v) s = .next (.written, t) ∧
    t.word (.io s.active.other) i.val = v ∧ SameMemoryBut (.io s.active.other) i.val s t ∧
    t.pc = s.pc ∧ SameRegs s t ∧ SameFlags s t ∧ SameControl s t ∧
    (∀ addr : Word, memRead addr t = memRead addr s) ∧ perform (.hostRead i) t = .next (.word v, t)

/-- The host observes registers, pc, flags, data RAM and the inactive buffer, on a faulted instance too, and observing
changes nothing (40_engine.md R90, decision D25; log 18). -/
def Obligations.ObservationChangesNothing : Prop :=
  ∀ s : State, ∃ o, perform .observe s = .next (.observed o, s) ∧ o.regs = s.regs ∧ o.pc = s.pc ∧
    o.carry = s.carry ∧ o.overflow = s.overflow ∧ (∀ i : Nat, o.ram.readWord i = s.word .ram i) ∧
    ∀ i : Nat, o.inactive.readWord i = s.word (.io s.active.other) i
end

