-- ==== Sys2Proof/Laws/Memory.lean ====
section
/-! SUPPORT. The laws of a store: a read after a write, for any list of cells, and the canonical form that every
write keeps. -/

namespace Sys2Proof.Machine

@[simp] theorem Memory.readByte_nil (k : Nat) : Memory.readByte [] k = 0#8 := rfl

theorem Memory.readByte_cons (j : Nat) (b : Byte) (m : Memory) (k : Nat) :
    Memory.readByte ((j, b) :: m) k = if j = k then b else m.readByte k := rfl

theorem Memory.readByte_eraseByte (m : Memory) (k j : Nat) :
    (m.eraseByte k).readByte j = if j = k then 0#8 else m.readByte j := by
  induction m with
  | nil => simp [Memory.eraseByte]
  | cons c rest ih =>
    obtain ⟨i, b⟩ := c
    by_cases hik : i = k
    · subst hik
      rw [Memory.eraseByte, if_pos rfl, ih, Memory.readByte_cons]
      by_cases hij : j = i
      · simp [hij]
      · simp [hij, Ne.symm hij]
    · rw [Memory.eraseByte, if_neg hik, Memory.readByte_cons, Memory.readByte_cons, ih]
      by_cases hij : i = j
      · simp [hij, show j ≠ k from hij ▸ hik]
      · simp [hij]

/-- An inserted cell is read where no cell of that key was listed; every other key reads as before. -/
theorem Memory.readByte_insertByte (m : Memory) (k j : Nat) (b : Byte) (habs : ∀ c ∈ m, c.1 ≠ k) :
    (m.insertByte k b).readByte j = if j = k then b else m.readByte j := by
  induction m with
  | nil => simp [Memory.insertByte, Memory.readByte_cons, eq_comm]
  | cons c rest ih =>
    obtain ⟨i, d⟩ := c
    have hik : i ≠ k := habs (i, d) (by simp)
    by_cases hlt : k < i
    · simp [Memory.insertByte, hlt, Memory.readByte_cons, eq_comm]
    · rw [Memory.insertByte, if_neg hlt, Memory.readByte_cons, Memory.readByte_cons,
        ih fun c hc => habs c (List.mem_cons_of_mem _ hc)]
      by_cases hij : i = j
      · simp [hij, show j ≠ k from hij ▸ hik]
      · simp [hij]

theorem Memory.eraseByte_absent (m : Memory) (k : Nat) : ∀ c ∈ m.eraseByte k, c.1 ≠ k := by
  induction m with
  | nil => simp [Memory.eraseByte]
  | cons c rest ih =>
    obtain ⟨i, b⟩ := c
    by_cases hik : i = k
    · simpa [Memory.eraseByte, hik] using ih
    · simpa [Memory.eraseByte, hik] using ih

/-- A written cell reads as written, every other one as before. -/
theorem Memory.readByte_writeByte (m : Memory) (k j : Nat) (b : Byte) :
    (m.writeByte k b).readByte j = if j = k then b else m.readByte j := by
  unfold Memory.writeByte
  by_cases hb : b = 0#8
  · simp [hb, Memory.readByte_eraseByte]
  · rw [if_neg hb, Memory.readByte_insertByte _ _ _ _ (m.eraseByte_absent k), Memory.readByte_eraseByte]
    split <;> rfl

/-- A written word reads as written, every other one as before. -/
theorem Memory.readWord_writeWord (m : Memory) (i j : Nat) (v : Word) :
    (m.writeWord i v).readWord j = if j = i then v else m.readWord j := by
  simp only [Memory.readWord, Memory.writeWord, Memory.readByte_writeByte]
  by_cases h : j = i
  · subst h
    have h1 : ¬(2 * j = 2 * j + 1) := by omega
    simp only [if_true, h1, if_false]
    ext n hn
    simp only [BitVec.getElem_append, BitVec.getElem_extractLsb']
    by_cases h8 : n < 8
    · simp [h8, BitVec.getLsbD_eq_getElem hn]
    · simp [h8, show 8 + (n - 8) = n by omega, BitVec.getLsbD_eq_getElem hn]
  · have h1 : ¬(2 * j + 1 = 2 * i + 1) := by omega
    have h2 : ¬(2 * j + 1 = 2 * i) := by omega
    have h3 : ¬(2 * j = 2 * i + 1) := by omega
    have h4 : ¬(2 * j = 2 * i) := by omega
    simp [h, h2, h3, h4]

@[simp] theorem Memory.readWord_writeWord_same (m : Memory) (i : Nat) (v : Word) :
    (m.writeWord i v).readWord i = v := by
  rw [Memory.readWord_writeWord, if_pos rfl]

@[simp] theorem Memory.readWord_nil (i : Nat) : Memory.readWord [] i = 0#16 := by
  simp only [Memory.readWord, Memory.readByte_nil]
  decide

theorem Memory.length_readWords (m : Memory) (i count : Nat) : (m.readWords i count).length = count := by
  induction count generalizing i with
  | zero => rfl
  | succ n ih => rw [Memory.readWords, List.length_cons, ih]

/-- The words of a range, one by one. -/
theorem Memory.getElem?_readWords (m : Memory) (i count j : Nat) (h : j < count) :
    (m.readWords i count)[j]? = some (m.readWord (i + j)) := by
  induction count generalizing i j with
  | zero => omega
  | succ n ih =>
    cases j with
    | zero => rfl
    | succ j => rw [Memory.readWords, List.getElem?_cons_succ, ih (i + 1) j (by omega)]; congr 2; omega

/-! ### the canonical form -/

theorem Memory.wfFrom_cons (low k : Nat) (b : Byte) (m : Memory) :
    Memory.wfFrom low ((k, b) :: m) = true ↔ low ≤ k ∧ b ≠ 0#8 ∧ Memory.wfFrom (k + 1) m = true := by
  simp [Memory.wfFrom, and_assoc]

theorem Memory.wfFrom_mono {low low' : Nat} {m : Memory} (hle : low' ≤ low) (h : Memory.wfFrom low m = true) :
    Memory.wfFrom low' m = true := by
  cases m with
  | nil => rfl
  | cons c rest =>
    obtain ⟨k, b⟩ := c
    rw [Memory.wfFrom_cons] at h ⊢
    exact ⟨hle.trans h.1, h.2⟩

theorem Memory.wfFrom_eraseByte {low : Nat} {m : Memory} (k : Nat) (h : Memory.wfFrom low m = true) :
    Memory.wfFrom low (m.eraseByte k) = true := by
  induction m generalizing low with
  | nil => rfl
  | cons c rest ih =>
    obtain ⟨j, b⟩ := c
    rw [Memory.wfFrom_cons] at h
    by_cases hjk : j = k
    · rw [Memory.eraseByte, if_pos hjk]
      exact ih (Memory.wfFrom_mono (by omega) h.2.2)
    · rw [Memory.eraseByte, if_neg hjk, Memory.wfFrom_cons]
      exact ⟨h.1, h.2.1, ih h.2.2⟩

theorem Memory.wfFrom_insertByte {low k : Nat} {b : Byte} {m : Memory} (hlow : low ≤ k) (hb : b ≠ 0#8)
    (habs : ∀ c ∈ m, c.1 ≠ k) (h : Memory.wfFrom low m = true) : Memory.wfFrom low (m.insertByte k b) = true := by
  induction m generalizing low with
  | nil => rw [Memory.insertByte, Memory.wfFrom_cons]; exact ⟨hlow, hb, rfl⟩
  | cons c rest ih =>
    obtain ⟨j, d⟩ := c
    have hjk : j ≠ k := habs (j, d) (by simp)
    rw [Memory.wfFrom_cons] at h
    by_cases hlt : k < j
    · rw [Memory.insertByte, if_pos hlt, Memory.wfFrom_cons, Memory.wfFrom_cons]
      exact ⟨hlow, hb, by omega, h.2⟩
    · rw [Memory.insertByte, if_neg hlt, Memory.wfFrom_cons]
      exact ⟨h.1, h.2.1, ih (by omega) (fun c hc => habs c (by simp [hc])) h.2.2⟩

/-- A byte write keeps the canonical form. -/
theorem Memory.wf_writeByte {m : Memory} (k : Nat) (b : Byte) (h : m.wf = true) : (m.writeByte k b).wf = true := by
  unfold Memory.writeByte
  split
  · exact Memory.wfFrom_eraseByte k h
  · next hb => exact Memory.wfFrom_insertByte (by omega) hb (m.eraseByte_absent k) (Memory.wfFrom_eraseByte k h)

/-- A word write keeps the canonical form. -/
theorem Memory.wf_writeWord {m : Memory} (i : Nat) (v : Word) (h : m.wf = true) : (m.writeWord i v).wf = true :=
  Memory.wf_writeByte _ _ (Memory.wf_writeByte _ _ h)

/-- Loading an image keeps the canonical form. -/
theorem Memory.wf_loadWords (words : List Word) {m : Memory} (i : Nat) (h : m.wf = true) :
    (m.loadWords i words).wf = true := by
  induction words generalizing m i with
  | nil => exact h
  | cons v rest ih => exact ih (i + 1) (Memory.wf_writeWord i v h)

/-! ### the size -/

theorem Memory.within_iff (m : Memory) (n : Nat) : m.within n = true ↔ ∀ c ∈ m, c.1 < 2 * n := by
  simp [Memory.within]

theorem Memory.mem_eraseByte {m : Memory} {k : Nat} {c : Host.Cell} (h : c ∈ m.eraseByte k) : c ∈ m := by
  induction m with
  | nil => exact h
  | cons d rest ih =>
    obtain ⟨j, b⟩ := d
    by_cases hjk : j = k
    · rw [Memory.eraseByte, if_pos hjk] at h
      exact List.mem_cons_of_mem _ (ih h)
    · rw [Memory.eraseByte, if_neg hjk, List.mem_cons] at h
      rcases h with rfl | h
      · simp
      · exact List.mem_cons_of_mem _ (ih h)

theorem Memory.mem_insertByte {m : Memory} {k : Nat} {b : Byte} {c : Host.Cell} (h : c ∈ m.insertByte k b) :
    c = (k, b) ∨ c ∈ m := by
  induction m with
  | nil => simpa [Memory.insertByte] using h
  | cons d rest ih =>
    obtain ⟨j, e⟩ := d
    by_cases hlt : k < j
    · rw [Memory.insertByte, if_pos hlt, List.mem_cons] at h
      exact h
    · rw [Memory.insertByte, if_neg hlt, List.mem_cons] at h
      rcases h with rfl | h
      · simp
      · rcases ih h with h | h
        · exact .inl h
        · exact .inr (List.mem_cons_of_mem _ h)

theorem Memory.within_writeByte {m : Memory} {n k : Nat} (b : Byte) (hk : k < 2 * n) (h : m.within n = true) :
    (m.writeByte k b).within n = true := by
  rw [Memory.within_iff] at h ⊢
  intro c hc
  unfold Memory.writeByte at hc
  split at hc
  · exact h c (Memory.mem_eraseByte hc)
  · rcases Memory.mem_insertByte hc with rfl | hc
    · exact hk
    · exact h c (Memory.mem_eraseByte hc)

/-- Writing a word of index below the size stays inside the size. -/
theorem Memory.within_writeWord {m : Memory} {n i : Nat} (v : Word) (hi : i < n) (h : m.within n = true) :
    (m.writeWord i v).within n = true :=
  Memory.within_writeByte _ (by omega) (Memory.within_writeByte _ (by omega) h)

/-- Loading an image that fits stays inside the size. -/
theorem Memory.within_loadWords {n : Nat} (words : List Word) {m : Memory} (i : Nat) (hi : i + words.length ≤ n)
    (h : m.within n = true) : (m.loadWords i words).within n = true := by
  induction words generalizing m i with
  | nil => exact h
  | cons v rest ih =>
    rw [List.length_cons] at hi
    exact ih (i + 1) (by omega) (Memory.within_writeWord v (by omega) h)

end Sys2Proof.Machine
end

