-- ==== Sys2Proof/Laws/State.lean ====
section
/-! SUPPORT. What each update of one component does to each component: one lemma per field per update. -/

namespace Sys2Proof.Machine

@[simp] theorem Bank.other_other (k : Bank) : k.other.other = k := by cases k <;> rfl

theorem Bank.other_ne (k : Bank) : k.other ≠ k := by cases k <;> decide

theorem Bank.eq_or_eq_other (j k : Bank) : j = k ∨ j = k.other := by cases j <;> cases k <;> simp [Bank.other]

/-! ### setReg -/

@[simp] theorem State.setReg_pc (s : State) (r : Reg) (v : Word) : (s.setReg r v).pc = s.pc := rfl
@[simp] theorem State.setReg_carry (s : State) (r : Reg) (v : Word) : (s.setReg r v).carry = s.carry := rfl
@[simp] theorem State.setReg_overflow (s : State) (r : Reg) (v : Word) : (s.setReg r v).overflow = s.overflow := rfl
@[simp] theorem State.setReg_prog (s : State) (r : Reg) (v : Word) : (s.setReg r v).prog = s.prog := rfl
@[simp] theorem State.setReg_rom (s : State) (r : Reg) (v : Word) : (s.setReg r v).rom = s.rom := rfl
@[simp] theorem State.setReg_ram (s : State) (r : Reg) (v : Word) : (s.setReg r v).ram = s.ram := rfl
@[simp] theorem State.setReg_io1 (s : State) (r : Reg) (v : Word) : (s.setReg r v).io1 = s.io1 := rfl
@[simp] theorem State.setReg_io2 (s : State) (r : Reg) (v : Word) : (s.setReg r v).io2 = s.io2 := rfl
@[simp] theorem State.setReg_active (s : State) (r : Reg) (v : Word) : (s.setReg r v).active = s.active := rfl
@[simp] theorem State.setReg_fault (s : State) (r : Reg) (v : Word) : (s.setReg r v).fault = s.fault := rfl
@[simp] theorem State.setReg_buffer (s : State) (r : Reg) (v : Word) (j : Bank) : (s.setReg r v).buffer j = s.buffer j := rfl

/-! ### setPc -/

@[simp] theorem State.setPc_regs (s : State) (t : Word) : (s.setPc t).regs = s.regs := rfl
@[simp] theorem State.setPc_pc (s : State) (t : Word) : (s.setPc t).pc = t := rfl
@[simp] theorem State.setPc_carry (s : State) (t : Word) : (s.setPc t).carry = s.carry := rfl
@[simp] theorem State.setPc_overflow (s : State) (t : Word) : (s.setPc t).overflow = s.overflow := rfl
@[simp] theorem State.setPc_prog (s : State) (t : Word) : (s.setPc t).prog = s.prog := rfl
@[simp] theorem State.setPc_rom (s : State) (t : Word) : (s.setPc t).rom = s.rom := rfl
@[simp] theorem State.setPc_ram (s : State) (t : Word) : (s.setPc t).ram = s.ram := rfl
@[simp] theorem State.setPc_io1 (s : State) (t : Word) : (s.setPc t).io1 = s.io1 := rfl
@[simp] theorem State.setPc_io2 (s : State) (t : Word) : (s.setPc t).io2 = s.io2 := rfl
@[simp] theorem State.setPc_active (s : State) (t : Word) : (s.setPc t).active = s.active := rfl
@[simp] theorem State.setPc_fault (s : State) (t : Word) : (s.setPc t).fault = s.fault := rfl
@[simp] theorem State.setPc_reg (s : State) (t : Word) (q : Reg) : (s.setPc t).reg q = s.reg q := rfl
@[simp] theorem State.setPc_buffer (s : State) (t : Word) (j : Bank) : (s.setPc t).buffer j = s.buffer j := rfl

/-! ### advancePc -/

@[simp] theorem State.advancePc_regs (s : State) : s.advancePc.regs = s.regs := rfl
@[simp] theorem State.advancePc_pc (s : State) : s.advancePc.pc = s.pc + 1#16 := rfl
@[simp] theorem State.advancePc_carry (s : State) : s.advancePc.carry = s.carry := rfl
@[simp] theorem State.advancePc_overflow (s : State) : s.advancePc.overflow = s.overflow := rfl
@[simp] theorem State.advancePc_prog (s : State) : s.advancePc.prog = s.prog := rfl
@[simp] theorem State.advancePc_rom (s : State) : s.advancePc.rom = s.rom := rfl
@[simp] theorem State.advancePc_ram (s : State) : s.advancePc.ram = s.ram := rfl
@[simp] theorem State.advancePc_io1 (s : State) : s.advancePc.io1 = s.io1 := rfl
@[simp] theorem State.advancePc_io2 (s : State) : s.advancePc.io2 = s.io2 := rfl
@[simp] theorem State.advancePc_active (s : State) : s.advancePc.active = s.active := rfl
@[simp] theorem State.advancePc_fault (s : State) : s.advancePc.fault = s.fault := rfl
@[simp] theorem State.advancePc_reg (s : State) (q : Reg) : s.advancePc.reg q = s.reg q := rfl
@[simp] theorem State.advancePc_buffer (s : State) (j : Bank) : s.advancePc.buffer j = s.buffer j := rfl

/-! ### setCarry -/

@[simp] theorem State.setCarry_regs (s : State) (c : Bool) : (s.setCarry c).regs = s.regs := rfl
@[simp] theorem State.setCarry_pc (s : State) (c : Bool) : (s.setCarry c).pc = s.pc := rfl
@[simp] theorem State.setCarry_carry (s : State) (c : Bool) : (s.setCarry c).carry = c := rfl
@[simp] theorem State.setCarry_overflow (s : State) (c : Bool) : (s.setCarry c).overflow = s.overflow := rfl
@[simp] theorem State.setCarry_prog (s : State) (c : Bool) : (s.setCarry c).prog = s.prog := rfl
@[simp] theorem State.setCarry_rom (s : State) (c : Bool) : (s.setCarry c).rom = s.rom := rfl
@[simp] theorem State.setCarry_ram (s : State) (c : Bool) : (s.setCarry c).ram = s.ram := rfl
@[simp] theorem State.setCarry_io1 (s : State) (c : Bool) : (s.setCarry c).io1 = s.io1 := rfl
@[simp] theorem State.setCarry_io2 (s : State) (c : Bool) : (s.setCarry c).io2 = s.io2 := rfl
@[simp] theorem State.setCarry_active (s : State) (c : Bool) : (s.setCarry c).active = s.active := rfl
@[simp] theorem State.setCarry_fault (s : State) (c : Bool) : (s.setCarry c).fault = s.fault := rfl
@[simp] theorem State.setCarry_reg (s : State) (c : Bool) (q : Reg) : (s.setCarry c).reg q = s.reg q := rfl
@[simp] theorem State.setCarry_buffer (s : State) (c : Bool) (j : Bank) : (s.setCarry c).buffer j = s.buffer j := rfl

/-! ### setOverflow -/

@[simp] theorem State.setOverflow_regs (s : State) (v : Bool) : (s.setOverflow v).regs = s.regs := rfl
@[simp] theorem State.setOverflow_pc (s : State) (v : Bool) : (s.setOverflow v).pc = s.pc := rfl
@[simp] theorem State.setOverflow_carry (s : State) (v : Bool) : (s.setOverflow v).carry = s.carry := rfl
@[simp] theorem State.setOverflow_overflow (s : State) (v : Bool) : (s.setOverflow v).overflow = v := rfl
@[simp] theorem State.setOverflow_prog (s : State) (v : Bool) : (s.setOverflow v).prog = s.prog := rfl
@[simp] theorem State.setOverflow_rom (s : State) (v : Bool) : (s.setOverflow v).rom = s.rom := rfl
@[simp] theorem State.setOverflow_ram (s : State) (v : Bool) : (s.setOverflow v).ram = s.ram := rfl
@[simp] theorem State.setOverflow_io1 (s : State) (v : Bool) : (s.setOverflow v).io1 = s.io1 := rfl
@[simp] theorem State.setOverflow_io2 (s : State) (v : Bool) : (s.setOverflow v).io2 = s.io2 := rfl
@[simp] theorem State.setOverflow_active (s : State) (v : Bool) : (s.setOverflow v).active = s.active := rfl
@[simp] theorem State.setOverflow_fault (s : State) (v : Bool) : (s.setOverflow v).fault = s.fault := rfl
@[simp] theorem State.setOverflow_reg (s : State) (v : Bool) (q : Reg) : (s.setOverflow v).reg q = s.reg q := rfl
@[simp] theorem State.setOverflow_buffer (s : State) (v : Bool) (j : Bank) : (s.setOverflow v).buffer j = s.buffer j := rfl

/-! ### setProg -/

@[simp] theorem State.setProg_regs (s : State) (m : Memory) : (s.setProg m).regs = s.regs := rfl
@[simp] theorem State.setProg_pc (s : State) (m : Memory) : (s.setProg m).pc = s.pc := rfl
@[simp] theorem State.setProg_carry (s : State) (m : Memory) : (s.setProg m).carry = s.carry := rfl
@[simp] theorem State.setProg_overflow (s : State) (m : Memory) : (s.setProg m).overflow = s.overflow := rfl
@[simp] theorem State.setProg_prog (s : State) (m : Memory) : (s.setProg m).prog = m := rfl
@[simp] theorem State.setProg_rom (s : State) (m : Memory) : (s.setProg m).rom = s.rom := rfl
@[simp] theorem State.setProg_ram (s : State) (m : Memory) : (s.setProg m).ram = s.ram := rfl
@[simp] theorem State.setProg_io1 (s : State) (m : Memory) : (s.setProg m).io1 = s.io1 := rfl
@[simp] theorem State.setProg_io2 (s : State) (m : Memory) : (s.setProg m).io2 = s.io2 := rfl
@[simp] theorem State.setProg_active (s : State) (m : Memory) : (s.setProg m).active = s.active := rfl
@[simp] theorem State.setProg_fault (s : State) (m : Memory) : (s.setProg m).fault = s.fault := rfl
@[simp] theorem State.setProg_reg (s : State) (m : Memory) (q : Reg) : (s.setProg m).reg q = s.reg q := rfl
@[simp] theorem State.setProg_buffer (s : State) (m : Memory) (j : Bank) : (s.setProg m).buffer j = s.buffer j := rfl

/-! ### setRom -/

@[simp] theorem State.setRom_regs (s : State) (m : Memory) : (s.setRom m).regs = s.regs := rfl
@[simp] theorem State.setRom_pc (s : State) (m : Memory) : (s.setRom m).pc = s.pc := rfl
@[simp] theorem State.setRom_carry (s : State) (m : Memory) : (s.setRom m).carry = s.carry := rfl
@[simp] theorem State.setRom_overflow (s : State) (m : Memory) : (s.setRom m).overflow = s.overflow := rfl
@[simp] theorem State.setRom_prog (s : State) (m : Memory) : (s.setRom m).prog = s.prog := rfl
@[simp] theorem State.setRom_rom (s : State) (m : Memory) : (s.setRom m).rom = m := rfl
@[simp] theorem State.setRom_ram (s : State) (m : Memory) : (s.setRom m).ram = s.ram := rfl
@[simp] theorem State.setRom_io1 (s : State) (m : Memory) : (s.setRom m).io1 = s.io1 := rfl
@[simp] theorem State.setRom_io2 (s : State) (m : Memory) : (s.setRom m).io2 = s.io2 := rfl
@[simp] theorem State.setRom_active (s : State) (m : Memory) : (s.setRom m).active = s.active := rfl
@[simp] theorem State.setRom_fault (s : State) (m : Memory) : (s.setRom m).fault = s.fault := rfl
@[simp] theorem State.setRom_reg (s : State) (m : Memory) (q : Reg) : (s.setRom m).reg q = s.reg q := rfl
@[simp] theorem State.setRom_buffer (s : State) (m : Memory) (j : Bank) : (s.setRom m).buffer j = s.buffer j := rfl

/-! ### setRam -/

@[simp] theorem State.setRam_regs (s : State) (m : Memory) : (s.setRam m).regs = s.regs := rfl
@[simp] theorem State.setRam_pc (s : State) (m : Memory) : (s.setRam m).pc = s.pc := rfl
@[simp] theorem State.setRam_carry (s : State) (m : Memory) : (s.setRam m).carry = s.carry := rfl
@[simp] theorem State.setRam_overflow (s : State) (m : Memory) : (s.setRam m).overflow = s.overflow := rfl
@[simp] theorem State.setRam_prog (s : State) (m : Memory) : (s.setRam m).prog = s.prog := rfl
@[simp] theorem State.setRam_rom (s : State) (m : Memory) : (s.setRam m).rom = s.rom := rfl
@[simp] theorem State.setRam_ram (s : State) (m : Memory) : (s.setRam m).ram = m := rfl
@[simp] theorem State.setRam_io1 (s : State) (m : Memory) : (s.setRam m).io1 = s.io1 := rfl
@[simp] theorem State.setRam_io2 (s : State) (m : Memory) : (s.setRam m).io2 = s.io2 := rfl
@[simp] theorem State.setRam_active (s : State) (m : Memory) : (s.setRam m).active = s.active := rfl
@[simp] theorem State.setRam_fault (s : State) (m : Memory) : (s.setRam m).fault = s.fault := rfl
@[simp] theorem State.setRam_reg (s : State) (m : Memory) (q : Reg) : (s.setRam m).reg q = s.reg q := rfl
@[simp] theorem State.setRam_buffer (s : State) (m : Memory) (j : Bank) : (s.setRam m).buffer j = s.buffer j := rfl

/-! ### setActive -/

@[simp] theorem State.setActive_regs (s : State) (k : Bank) : (s.setActive k).regs = s.regs := rfl
@[simp] theorem State.setActive_pc (s : State) (k : Bank) : (s.setActive k).pc = s.pc := rfl
@[simp] theorem State.setActive_carry (s : State) (k : Bank) : (s.setActive k).carry = s.carry := rfl
@[simp] theorem State.setActive_overflow (s : State) (k : Bank) : (s.setActive k).overflow = s.overflow := rfl
@[simp] theorem State.setActive_prog (s : State) (k : Bank) : (s.setActive k).prog = s.prog := rfl
@[simp] theorem State.setActive_rom (s : State) (k : Bank) : (s.setActive k).rom = s.rom := rfl
@[simp] theorem State.setActive_ram (s : State) (k : Bank) : (s.setActive k).ram = s.ram := rfl
@[simp] theorem State.setActive_io1 (s : State) (k : Bank) : (s.setActive k).io1 = s.io1 := rfl
@[simp] theorem State.setActive_io2 (s : State) (k : Bank) : (s.setActive k).io2 = s.io2 := rfl
@[simp] theorem State.setActive_active (s : State) (k : Bank) : (s.setActive k).active = k := rfl
@[simp] theorem State.setActive_fault (s : State) (k : Bank) : (s.setActive k).fault = s.fault := rfl
@[simp] theorem State.setActive_reg (s : State) (k : Bank) (q : Reg) : (s.setActive k).reg q = s.reg q := rfl
@[simp] theorem State.setActive_buffer (s : State) (k : Bank) (j : Bank) : (s.setActive k).buffer j = s.buffer j := rfl

/-! ### setFault -/

@[simp] theorem State.setFault_regs (s : State) (f : Option FaultRecord) : (s.setFault f).regs = s.regs := rfl
@[simp] theorem State.setFault_pc (s : State) (f : Option FaultRecord) : (s.setFault f).pc = s.pc := rfl
@[simp] theorem State.setFault_carry (s : State) (f : Option FaultRecord) : (s.setFault f).carry = s.carry := rfl
@[simp] theorem State.setFault_overflow (s : State) (f : Option FaultRecord) : (s.setFault f).overflow = s.overflow := rfl
@[simp] theorem State.setFault_prog (s : State) (f : Option FaultRecord) : (s.setFault f).prog = s.prog := rfl
@[simp] theorem State.setFault_rom (s : State) (f : Option FaultRecord) : (s.setFault f).rom = s.rom := rfl
@[simp] theorem State.setFault_ram (s : State) (f : Option FaultRecord) : (s.setFault f).ram = s.ram := rfl
@[simp] theorem State.setFault_io1 (s : State) (f : Option FaultRecord) : (s.setFault f).io1 = s.io1 := rfl
@[simp] theorem State.setFault_io2 (s : State) (f : Option FaultRecord) : (s.setFault f).io2 = s.io2 := rfl
@[simp] theorem State.setFault_active (s : State) (f : Option FaultRecord) : (s.setFault f).active = s.active := rfl
@[simp] theorem State.setFault_fault (s : State) (f : Option FaultRecord) : (s.setFault f).fault = f := rfl
@[simp] theorem State.setFault_reg (s : State) (f : Option FaultRecord) (q : Reg) : (s.setFault f).reg q = s.reg q := rfl
@[simp] theorem State.setFault_buffer (s : State) (f : Option FaultRecord) (j : Bank) : (s.setFault f).buffer j = s.buffer j := rfl

/-! ### raiseFault -/

@[simp] theorem State.raiseFault_regs (s : State) (f : FaultRecord) : (s.raiseFault f).regs = s.regs := rfl
@[simp] theorem State.raiseFault_pc (s : State) (f : FaultRecord) : (s.raiseFault f).pc = s.pc := rfl
@[simp] theorem State.raiseFault_carry (s : State) (f : FaultRecord) : (s.raiseFault f).carry = s.carry := rfl
@[simp] theorem State.raiseFault_overflow (s : State) (f : FaultRecord) : (s.raiseFault f).overflow = s.overflow := rfl
@[simp] theorem State.raiseFault_prog (s : State) (f : FaultRecord) : (s.raiseFault f).prog = s.prog := rfl
@[simp] theorem State.raiseFault_rom (s : State) (f : FaultRecord) : (s.raiseFault f).rom = s.rom := rfl
@[simp] theorem State.raiseFault_ram (s : State) (f : FaultRecord) : (s.raiseFault f).ram = s.ram := rfl
@[simp] theorem State.raiseFault_io1 (s : State) (f : FaultRecord) : (s.raiseFault f).io1 = s.io1 := rfl
@[simp] theorem State.raiseFault_io2 (s : State) (f : FaultRecord) : (s.raiseFault f).io2 = s.io2 := rfl
@[simp] theorem State.raiseFault_active (s : State) (f : FaultRecord) : (s.raiseFault f).active = s.active := rfl
@[simp] theorem State.raiseFault_fault (s : State) (f : FaultRecord) : (s.raiseFault f).fault = some f := rfl
@[simp] theorem State.raiseFault_reg (s : State) (f : FaultRecord) (q : Reg) : (s.raiseFault f).reg q = s.reg q := rfl
@[simp] theorem State.raiseFault_buffer (s : State) (f : FaultRecord) (j : Bank) : (s.raiseFault f).buffer j = s.buffer j := rfl

/-! ### registers -/

/-- A write of one register, read back through any index. -/
theorem State.reg_setReg (s : State) (r q : Reg) (v : Word) :
    (s.setReg r v).reg q = if q = r then v else s.reg q := by
  simp only [State.reg, State.setReg, Vector.getElem_set, Fin.ext_iff]
  grind

@[simp] theorem State.reg_setReg_same (s : State) (r : Reg) (v : Word) : (s.setReg r v).reg r = v := by
  rw [State.reg_setReg, if_pos rfl]

theorem State.reg_setReg_other (s : State) (r q : Reg) (v : Word) (h : q ≠ r) :
    (s.setReg r v).reg q = s.reg q := by
  rw [State.reg_setReg, if_neg h]

/-! ### I/O buffers -/

@[simp] theorem State.setBuffer_regs (s : State) (k : Bank) (m : Memory) : (s.setBuffer k m).regs = s.regs := by
  cases k <;> rfl

@[simp] theorem State.setBuffer_pc (s : State) (k : Bank) (m : Memory) : (s.setBuffer k m).pc = s.pc := by
  cases k <;> rfl

@[simp] theorem State.setBuffer_carry (s : State) (k : Bank) (m : Memory) : (s.setBuffer k m).carry = s.carry := by
  cases k <;> rfl

@[simp] theorem State.setBuffer_overflow (s : State) (k : Bank) (m : Memory) : (s.setBuffer k m).overflow = s.overflow := by
  cases k <;> rfl

@[simp] theorem State.setBuffer_prog (s : State) (k : Bank) (m : Memory) : (s.setBuffer k m).prog = s.prog := by
  cases k <;> rfl

@[simp] theorem State.setBuffer_rom (s : State) (k : Bank) (m : Memory) : (s.setBuffer k m).rom = s.rom := by
  cases k <;> rfl

@[simp] theorem State.setBuffer_ram (s : State) (k : Bank) (m : Memory) : (s.setBuffer k m).ram = s.ram := by
  cases k <;> rfl

@[simp] theorem State.setBuffer_active (s : State) (k : Bank) (m : Memory) : (s.setBuffer k m).active = s.active := by
  cases k <;> rfl

@[simp] theorem State.setBuffer_fault (s : State) (k : Bank) (m : Memory) : (s.setBuffer k m).fault = s.fault := by
  cases k <;> rfl

@[simp] theorem State.setBuffer_reg (s : State) (k : Bank) (m : Memory) (q : Reg) :
    (s.setBuffer k m).reg q = s.reg q := by
  cases k <;> rfl

/-- A replaced buffer, read back through either selector value. -/
theorem State.buffer_setBuffer (s : State) (k j : Bank) (m : Memory) :
    (s.setBuffer k m).buffer j = if j = k then m else s.buffer j := by
  cases k <;> cases j <;> rfl

@[simp] theorem State.buffer_setBuffer_same (s : State) (k : Bank) (m : Memory) :
    (s.setBuffer k m).buffer k = m := by
  rw [State.buffer_setBuffer, if_pos rfl]

@[simp] theorem State.writeBuffer_regs (s : State) (k : Bank) (i : Nat) (v : Word) :
    (s.writeBuffer k i v).regs = s.regs := by
  simp [State.writeBuffer]

@[simp] theorem State.writeBuffer_pc (s : State) (k : Bank) (i : Nat) (v : Word) :
    (s.writeBuffer k i v).pc = s.pc := by
  simp [State.writeBuffer]

@[simp] theorem State.writeBuffer_carry (s : State) (k : Bank) (i : Nat) (v : Word) :
    (s.writeBuffer k i v).carry = s.carry := by
  simp [State.writeBuffer]

@[simp] theorem State.writeBuffer_overflow (s : State) (k : Bank) (i : Nat) (v : Word) :
    (s.writeBuffer k i v).overflow = s.overflow := by
  simp [State.writeBuffer]

@[simp] theorem State.writeBuffer_prog (s : State) (k : Bank) (i : Nat) (v : Word) :
    (s.writeBuffer k i v).prog = s.prog := by
  simp [State.writeBuffer]

@[simp] theorem State.writeBuffer_rom (s : State) (k : Bank) (i : Nat) (v : Word) :
    (s.writeBuffer k i v).rom = s.rom := by
  simp [State.writeBuffer]

@[simp] theorem State.writeBuffer_ram (s : State) (k : Bank) (i : Nat) (v : Word) :
    (s.writeBuffer k i v).ram = s.ram := by
  simp [State.writeBuffer]

@[simp] theorem State.writeBuffer_active (s : State) (k : Bank) (i : Nat) (v : Word) :
    (s.writeBuffer k i v).active = s.active := by
  simp [State.writeBuffer]

@[simp] theorem State.writeBuffer_fault (s : State) (k : Bank) (i : Nat) (v : Word) :
    (s.writeBuffer k i v).fault = s.fault := by
  simp [State.writeBuffer]

@[simp] theorem State.writeBuffer_reg (s : State) (k : Bank) (i : Nat) (v : Word) (q : Reg) :
    (s.writeBuffer k i v).reg q = s.reg q := by
  simp [State.writeBuffer]

theorem State.buffer_writeBuffer (s : State) (k j : Bank) (i : Nat) (v : Word) :
    (s.writeBuffer k i v).buffer j = if j = k then (s.buffer k).writeWord i v else s.buffer j := by
  rw [State.writeBuffer, State.buffer_setBuffer]

end Sys2Proof.Machine
end

