-- ==== Sys2Proof/Laws/Ops.lean ====
section
/-! SUPPORT. What each shared operation can do, once: the address decoder, the access, raising a fault, the adder,
the branch. -/

namespace Sys2Proof.Machine

/-! ### the address decoder -/

theorem ramOffset_eq {addr : Word} (h : Config.ramBase ≤ addr.toNat) :
    (addr &&& Config.ramOffsetMask).toNat = addr.toNat - Config.ramBase := by
  have hlt := addr.isLt
  have hmod := Nat.and_two_pow_sub_one_eq_mod addr.toNat 15
  simp only [BitVec.toNat_and, BitVec.toNat_ofNat] at *
  norm_num at *
  omega

theorem ioOffset_eq {addr : Word} (h : Config.ioBase ≤ addr.toNat) (h' : addr.toNat < Config.ioLimit) :
    (addr &&& Config.ioOffsetMask).toNat = addr.toNat - Config.ioBase := by
  have hmod := Nat.and_two_pow_sub_one_eq_mod addr.toNat 10
  simp only [BitVec.toNat_and, BitVec.toNat_ofNat] at *
  norm_num at *
  omega

theorem route_rom {addr : Word} (h : addr.toNat < Config.ramBase) : route addr = .rom addr.toNat := by
  rw [route, if_pos h]

theorem route_ram {addr : Word} (h : Config.ramBase ≤ addr.toNat) (h' : addr.toNat < Config.ioBase) :
    route addr = .ram (addr.toNat - Config.ramBase) := by
  rw [route, if_neg (by omega), if_pos h', ramOffset_eq h]

theorem route_io {addr : Word} (h : Config.ioBase ≤ addr.toNat) (h' : addr.toNat < Config.ioLimit) :
    route addr = .io (addr.toNat - Config.ioBase) := by
  have hb : Config.ramBase ≤ Config.ioBase := by decide
  rw [route, if_neg (by omega), if_neg (by omega), if_pos h', ioOffset_eq h h']

theorem route_unmapped {addr : Word} (h : Config.ioLimit ≤ addr.toNat) : route addr = .unmapped := by
  have hb : Config.ramBase ≤ Config.ioLimit := by decide
  have hc : Config.ioBase ≤ Config.ioLimit := by decide
  rw [route, if_neg (by omega), if_neg (by omega), if_neg (by omega)]

/-- A write that is accepted changes one word of the RAM or of the active buffer, at an index inside its size. -/
theorem memWrite_ok_cases {addr v : Word} {s t : State} (h : memWrite addr v s = .ok t) :
    (∃ k < Config.ramWords, route addr = .ram k ∧ t = s.setRam (s.ram.writeWord k v)) ∨
    (∃ k < Config.ioWords, route addr = .io k ∧ t = s.writeBuffer s.active k v) := by
  unfold memWrite at h
  by_cases h1 : addr.toNat < Config.ramBase
  · rw [route_rom h1] at h; cases h
  · by_cases h2 : addr.toNat < Config.ioBase
    · rw [route_ram (by omega) h2] at h
      cases h
      refine .inl ⟨_, ?_, route_ram (by omega) h2, rfl⟩
      show addr.toNat - 32768 < 30720
      simp only [Config.ioBase] at h2; omega
    · by_cases h3 : addr.toNat < Config.ioLimit
      · rw [route_io (by omega) h3] at h
        cases h
        refine .inr ⟨_, ?_, route_io (by omega) h3, rfl⟩
        show addr.toNat - 63488 < 1024
        simp only [Config.ioLimit] at h3; omega
      · rw [route_unmapped (by omega)] at h; cases h

/-- A write is turned away at a ROM address or at an unmapped one. -/
theorem memWrite_error_cases {addr v : Word} {s : State} {r : FaultRecord} (h : memWrite addr v s = .error r) :
    (addr.toNat < Config.ramBase ∧ r = .writeToRom addr) ∨
    (Config.ioLimit ≤ addr.toNat ∧ r = .writeOutOfBounds addr) := by
  unfold memWrite at h
  by_cases h1 : addr.toNat < Config.ramBase
  · rw [route_rom h1] at h; cases h; exact .inl ⟨h1, rfl⟩
  · by_cases h2 : addr.toNat < Config.ioBase
    · rw [route_ram (by omega) h2] at h; cases h
    · by_cases h3 : addr.toNat < Config.ioLimit
      · rw [route_io (by omega) h3] at h; cases h
      · rw [route_unmapped (by omega)] at h; cases h; exact .inr ⟨by omega, rfl⟩

/-- A read is turned away at an unmapped address only. -/
theorem memRead_error_cases {addr : Word} {s : State} {r : FaultRecord} (h : memRead addr s = .error r) :
    Config.ioLimit ≤ addr.toNat ∧ r = .readOutOfBounds addr := by
  unfold memRead at h
  by_cases h1 : addr.toNat < Config.ramBase
  · rw [route_rom h1] at h; cases h
  · by_cases h2 : addr.toNat < Config.ioBase
    · rw [route_ram (by omega) h2] at h; cases h
    · by_cases h3 : addr.toNat < Config.ioLimit
      · rw [route_io (by omega) h3] at h; cases h
      · rw [route_unmapped (by omega)] at h; cases h; exact ⟨by omega, rfl⟩

/-! ### the access -/

/-- With its access done an instruction is finished by `k`; with a fault raised the record is all that changes. -/
theorem afterAccess_next_cases {α : Type} {access : Except FaultRecord α} {s t : State} {k : α → State}
    (h : afterAccess access s k = .next t) :
    (∃ v, access = .ok v ∧ t = k v) ∨ (∃ r, access = .error r ∧ t = s.raiseFault r) := by
  cases access with
  | ok v => exact .inl ⟨v, rfl, by simpa [afterAccess] using h.symm⟩
  | error r => exact .inr ⟨r, rfl, by simpa [afterAccess] using h.symm⟩

/-! ### the adder -/

@[simp] theorem basicAdd_reg_same (p q : Word) (cin : Bool) (d : Reg) (s : State) :
    (basicAdd p q cin d s).reg d = adderResult p q cin := by
  simp [basicAdd]

theorem basicAdd_reg_other (p q : Word) (cin : Bool) (d r : Reg) (s : State) (h : r ≠ d) :
    (basicAdd p q cin d s).reg r = s.reg r := by
  simp [basicAdd, State.reg_setReg_other _ _ _ _ h]

@[simp] theorem basicAdd_carry (p q : Word) (cin : Bool) (d : Reg) (s : State) :
    (basicAdd p q cin d s).carry = adderCarry p q cin := rfl

@[simp] theorem basicAdd_overflow (p q : Word) (cin : Bool) (d : Reg) (s : State) :
    (basicAdd p q cin d s).overflow = adderOverflow p q cin := rfl

@[simp] theorem basicAdd_pc (p q : Word) (cin : Bool) (d : Reg) (s : State) : (basicAdd p q cin d s).pc = s.pc := rfl

@[simp] theorem basicAdd_prog (p q : Word) (cin : Bool) (d : Reg) (s : State) :
    (basicAdd p q cin d s).prog = s.prog := rfl

@[simp] theorem basicAdd_rom (p q : Word) (cin : Bool) (d : Reg) (s : State) :
    (basicAdd p q cin d s).rom = s.rom := rfl

@[simp] theorem basicAdd_ram (p q : Word) (cin : Bool) (d : Reg) (s : State) :
    (basicAdd p q cin d s).ram = s.ram := rfl

@[simp] theorem basicAdd_buffer (p q : Word) (cin : Bool) (d : Reg) (s : State) (j : Bank) :
    (basicAdd p q cin d s).buffer j = s.buffer j := rfl

@[simp] theorem basicAdd_active (p q : Word) (cin : Bool) (d : Reg) (s : State) :
    (basicAdd p q cin d s).active = s.active := rfl

@[simp] theorem basicAdd_fault (p q : Word) (cin : Bool) (d : Reg) (s : State) :
    (basicAdd p q cin d s).fault = s.fault := rfl

/-- The adder's sum fits 17 bits (43_arithmetic.md R98). -/
theorem adderSum_lt (p q : Word) (cin : Bool) : adderSum p q cin < 131072 := by
  have hp := p.isLt
  have hq := q.isLt
  have hc : cin.toNat ≤ 1 := Bool.toNat_le cin
  unfold adderSum
  omega

/-- The truncated sum as a number. -/
theorem adderResult_toNat (p q : Word) (cin : Bool) : (adderResult p q cin).toNat = adderSum p q cin % 65536 := by
  rw [adderResult, BitVec.toNat_ofNat]

/-- Bit 15 says whether a word is at least 32768 (00_scope.md R10). -/
theorem isNegative_eq (v : Word) : isNegative v = decide (32768 ≤ v.toNat) := by
  have h := v.isLt
  rw [isNegative, BitVec.getLsbD, Nat.testBit_eq_decide_div_mod_eq, decide_eq_decide]
  omega

/-! ### the branch -/

/-- A branch changes the pc alone. -/
theorem branchTo_eq_setPc (taken : Bool) (target : Word) (s : State) :
    branchTo taken target s = s.setPc (if taken then target else s.pc + 1#16) := by
  cases taken <;> rfl

/-! ### loading a program word -/

/-- The word put at the pc is the word fetched there. -/
theorem State.loadAtPc_fetched (s : State) (w : Word) : (s.loadAtPc w).fetched = decode w := by
  simp [State.loadAtPc, State.fetched, State.instrAt]

@[simp] theorem State.loadAtPc_fault (s : State) (w : Word) : (s.loadAtPc w).fault = none := rfl

end Sys2Proof.Machine
end

