-- ==== Sys2Proof/Laws/PerInstr.lean ====
section
/-! SUPPORT. The family of statements made per instruction: the word of an instruction carries the opcode of its
row in bits 15..12 (30_encoding.md R62). -/

namespace Sys2Proof.Laws.EncodesOpcode

/-- Bits 15..12 of the encoded word are the instruction's opcode. -/
def Statement (i : Instr) : Prop := fieldOp (encode i) = i.opcode.code

/-- The opcode field of four packed fields is the first of them. -/
theorem fieldOp_packFields (op a b c : Nibble) : fieldOp (packFields op a b c) = op := by
  unfold fieldOp packFields
  ext n hn
  simp only [BitVec.getElem_extractLsb', BitVec.getLsbD_append]
  simp [show ¬(12 + n < 4) by omega, show ¬(12 + n - 4 < 4) by omega, show ¬(12 + n - 4 - 4 < 4) by omega,
    show 12 + n - 4 - 4 - 4 = n by omega, BitVec.getLsbD_eq_getElem hn]

theorem endFrame : Statement (.endFrame) := fieldOp_packFields _ _ _ _

theorem hby (imm8 : Byte) (d : Reg) : Statement (.hby imm8 d) := fieldOp_packFields _ _ _ _

theorem lby (imm8 : Byte) (d : Reg) : Statement (.lby imm8 d) := fieldOp_packFields _ _ _ _

theorem lod (a d : Reg) : Statement (.lod a d) := fieldOp_packFields _ _ _ _

theorem str (a b : Reg) : Statement (.str a b) := fieldOp_packFields _ _ _ _

theorem add (a b d : Reg) : Statement (.add a b d) := fieldOp_packFields _ _ _ _

theorem sub (a b d : Reg) : Statement (.sub a b d) := fieldOp_packFields _ _ _ _

theorem adi (a : Reg) (imm4 : Nibble) (d : Reg) : Statement (.adi a imm4 d) := fieldOp_packFields _ _ _ _

theorem sbi (a : Reg) (imm4 : Nibble) (d : Reg) : Statement (.sbi a imm4 d) := fieldOp_packFields _ _ _ _

theorem and (a b d : Reg) : Statement (.and a b d) := fieldOp_packFields _ _ _ _

theorem orr (a b d : Reg) : Statement (.orr a b d) := fieldOp_packFields _ _ _ _

theorem xor (a b d : Reg) : Statement (.xor a b d) := fieldOp_packFields _ _ _ _

theorem not (a d : Reg) : Statement (.not a d) := fieldOp_packFields _ _ _ _

theorem shf (a : Reg) (dir : ShiftDir) (amount : Nat) (d : Reg) : Statement (.shf a dir amount d) := fieldOp_packFields _ _ _ _

theorem brv (a b : Reg) (n z p : Bool) : Statement (.brv a b n z p) := fieldOp_packFields _ _ _ _

theorem brf (b : Reg) (v cy : Bool) : Statement (.brf b v cy) := fieldOp_packFields _ _ _ _

end Sys2Proof.Laws.EncodesOpcode
end

