-- ==== Sys2Proof/Laws/Step.lean ====
section
/-! SUPPORT. Inversion of the step, of the run loop and of the commands: what each can answer, once. -/

namespace Sys2Proof.Machine

/-- A step that answers a next state ran the fetched instruction on an instance without a fault. -/
theorem step_next_inv {s t : State} (h : step s = .next t) : s.fault = none ∧ exec s.fetched s = .next t := by
  unfold step at h
  split at h
  · cases h
  · next hf => exact ⟨hf, h⟩

/-- The step command is the step with its reply. -/
theorem stepCommand_next_inv {s t : State} {r : StepReply} (h : stepCommand s = .next (r, t)) :
    step s = .next t ∧ r = stepReply s t := by
  unfold stepCommand at h
  split at h
  · next u hu => cases h; exact ⟨hu, rfl⟩
  · cases h
  · cases h

/-- The two ways a reply comes about. -/
theorem stepReply_cases (s t : State) :
    (∃ r, t.fault = some r ∧ stepReply s t = .raised r) ∨
    (t.fault = none ∧ stepReply s t = .halted (halts s.fetched)) := by
  unfold stepReply
  cases h : t.fault with
  | none => exact .inr ⟨rfl, rfl⟩
  | some r => exact .inl ⟨r, rfl, rfl⟩

/-- A loop with budget left goes on, ends at END, or ends at a fault. -/
theorem runLoop_succ_inv {n : Nat} {s : State} {e : FrameEnd} (h : runLoop (n + 1) s = .next e) :
    ∃ t, step s = .next t ∧
      ((t.fault = none ∧ halts s.fetched = false ∧ ∃ e', runLoop n t = .next e' ∧ e = e'.afterStep) ∨
       (t.fault = none ∧ halts s.fetched = true ∧ e = { steps := 1, halted := true, state := t }) ∨
       (t.fault ≠ none ∧ e = { steps := 1, halted := false, state := t })) := by
  rw [runLoop] at h
  split at h
  · next t hc =>
    obtain ⟨hs, hr⟩ := stepCommand_next_inv hc
    refine ⟨t, hs, .inl ?_⟩
    rcases stepReply_cases s t with ⟨r, -, h2⟩ | ⟨h1, h2⟩
    · rw [h2] at hr; cases hr
    · rw [h2] at hr
      refine ⟨h1, by simpa using hr.symm, ?_⟩
      split at h
      · next e' he' => cases h; exact ⟨e', he', rfl⟩
      · cases h
      · cases h
  · next t hc =>
    obtain ⟨hs, hr⟩ := stepCommand_next_inv hc
    refine ⟨t, hs, .inr (.inl ?_)⟩
    rcases stepReply_cases s t with ⟨r, -, h2⟩ | ⟨h1, h2⟩
    · rw [h2] at hr; cases hr
    · rw [h2] at hr
      cases h
      exact ⟨h1, by simpa using hr.symm, rfl⟩
  · next r t hc =>
    obtain ⟨hs, hr⟩ := stepCommand_next_inv hc
    refine ⟨t, hs, .inr (.inr ?_)⟩
    rcases stepReply_cases s t with ⟨r', h1, -⟩ | ⟨-, h2⟩
    · cases h
      exact ⟨by simp [h1], rfl⟩
    · rw [h2] at hr; cases hr
  · cases h
  · cases h

/-- A run that answers ran the loop from the synchronised state, on an instance without a fault. -/
theorem runFrame_next_inv {n : Nat} {s t : State} {r : RunReply} (h : runFrame n s = .next (r, t)) :
    s.fault = none ∧ ∃ e, runLoop n s.syncPc = .next e ∧ finishRun e.state = (r, t) := by
  unfold runFrame at h
  split at h
  · cases h
  · next hf =>
    refine ⟨hf, ?_⟩
    split at h
    · next e he => exact ⟨e, he, by simpa using h⟩
    · cases h
    · cases h

/-- After the loop: the record without a swap, or the swap with the outgoing buffer. -/
theorem finishRun_cases {s t : State} {r : RunReply} (h : finishRun s = (r, t)) :
    (∃ f, s.fault = some f ∧ r = .raised f ∧ t = s) ∨
    (s.fault = none ∧ r = .buffer (bufferWords (s.swap.buffer s.active)) ∧ t = s.swap) := by
  unfold finishRun at h
  cases hf : s.fault with
  | none => rw [hf] at h; cases h; exact .inr ⟨rfl, rfl, rfl⟩
  | some f => rw [hf] at h; cases h; exact .inl ⟨f, rfl, rfl, rfl⟩

/-- What the swap leaves in each buffer: word 0 of the incoming one is the frame-sync cell, nothing else changes. -/
theorem State.swap_buffer (s : State) (j : Bank) :
    s.swap.buffer j = if j = s.active.other then (s.buffer s.active.other).writeWord 0 s.frameSync else s.buffer j := by
  rw [State.swap, State.setActive_buffer, State.buffer_writeBuffer]

@[simp] theorem State.swap_active (s : State) : s.swap.active = s.active.other := rfl

@[simp] theorem State.swap_regs (s : State) : s.swap.regs = s.regs := by simp [State.swap]

@[simp] theorem State.swap_reg (s : State) (r : Reg) : s.swap.reg r = s.reg r := by simp [State.swap]

@[simp] theorem State.swap_carry (s : State) : s.swap.carry = s.carry := by simp [State.swap]

@[simp] theorem State.swap_overflow (s : State) : s.swap.overflow = s.overflow := by simp [State.swap]

@[simp] theorem State.swap_fault (s : State) : s.swap.fault = s.fault := by simp [State.swap]

@[simp] theorem State.swap_pc (s : State) : s.swap.pc = s.pc := by simp [State.swap]

@[simp] theorem State.swap_prog (s : State) : s.swap.prog = s.prog := by simp [State.swap]

@[simp] theorem State.swap_rom (s : State) : s.swap.rom = s.rom := by simp [State.swap]

@[simp] theorem State.swap_ram (s : State) : s.swap.ram = s.ram := by simp [State.swap]

/-! ### the machine behind the host's interface -/

/-- A first step that answers next is followed by the other steps. -/
theorem coreRun_succ_of_next (M : Host.Core) {k : Nat} {s t : M.State} (h : M.step s = .next t) :
    M.run (k + 1) s = M.run k t := by
  rw [Host.Core.run, h]

/-- A run of one or more steps that answers next took its first step. -/
theorem coreRun_succ_next_inv (M : Host.Core) {k : Nat} {s t : M.State} (h : M.run (k + 1) s = .next t) :
    ∃ u, M.step s = .next u ∧ M.run k u = .next t := by
  rw [Host.Core.run] at h
  cases hs : M.step s with
  | next u => rw [hs] at h; exact ⟨u, rfl, h⟩
  | fault r => rw [hs] at h; cases h
  | refused r => rw [hs] at h; cases h

/-- `coreRun_succ_of_next` for this machine. -/
theorem core_run_succ_of_next {k : Nat} {s t : State} (h : step s = .next t) :
    Sys2Proof.core.run (k + 1) s = Sys2Proof.core.run k t :=
  coreRun_succ_of_next Sys2Proof.core h

/-- `coreRun_succ_next_inv` for this machine. -/
theorem core_run_succ_next_inv {k : Nat} {s t : State} (h : Sys2Proof.core.run (k + 1) s = .next t) :
    ∃ u : State, step s = .next u ∧ Sys2Proof.core.run k u = .next t :=
  coreRun_succ_next_inv Sys2Proof.core h

/-! ### the stores of the reset state -/

/-- Every store of the reset state is empty, so canonical. -/
theorem State.reset_store_wf (k : Store) : (State.reset.store k).wf = true := by
  cases k with
  | io b => cases b <;> rfl
  | prog => rfl
  | rom => rfl
  | ram => rfl

end Sys2Proof.Machine
end

