-- ==== Sys2Proof/Tests/Slice0.lean ====
section
/-! SUPPORT. The model's own tests: the well-formedness smoke, one word per constructor written out from the spec's
encoding, single steps with the spec's vectors (95_test_vectors.md), and for every statement with hypotheses a state
and operands that meet them. -/

namespace Sys2Proof.Tests

open Sys2Proof Sys2Proof.Machine

/-! ## Helpers -/

/-- The state after an outcome, when it is a next state. -/
def nextOf {α : Type} (o : Host.Outcome α Fault Refusal) : Option α :=
  match o with
  | .next t => some t
  | .fault _ => none
  | .refused _ => none

/-- The reset state with three registers set and a program from address 0. -/
def machine (r1 r2 r3 : Word) (program : List Word) : State :=
  (((State.reset.setReg 1 r1).setReg 2 r2).setReg 3 r3).setProg (Memory.loadWords [] 0 program)

/-- One field of the state after one step of that machine. -/
def stepOf {β : Type} (f : State → β) (r1 r2 r3 : Word) (w : Word) : Option β :=
  (nextOf (step (machine r1 r2 r3 [w]))).map f

/-- C and V. -/
def flagsOf (s : State) : Bool × Bool := (s.carry, s.overflow)

/-! ## Well-formedness: each check refuses an ill-formed term -/

theorem test_wellFormed_refuses_amount_zero : (Instr.shf 0 .left 0 0).wellFormed = false := by decide
theorem test_wellFormed_refuses_amount_nine : (Instr.shf 0 .right 9 0).wellFormed = false := by decide
theorem test_wellFormed_takes_one_and_eight :
    (Instr.shf 0 .left 1 0).wellFormed = true ∧ (Instr.shf 0 .right 8 0).wellFormed = true := by decide

/-! ## One word per constructor, written out from its encoding row (opcode_table.json, 30_encoding.md R62) -/

theorem test_decode_end : decode 0b0000_1111_1111_1111#16 = .endFrame := by decide
theorem test_decode_hby : decode 0b0001_1010_1011_0011#16 = .hby 0xAB#8 3 := by decide
theorem test_decode_lby : decode 0b0010_1100_1101_0011#16 = .lby 0xCD#8 3 := by decide
theorem test_decode_lod : decode 0b0011_0001_1111_0010#16 = .lod 1 2 := by decide
theorem test_decode_str : decode 0b0100_1010_0010_1111#16 = .str 10 2 := by decide
theorem test_decode_add : decode 0b0101_0000_0001_0010#16 = .add 0 1 2 := by decide
theorem test_decode_sub : decode 0b0110_0101_0001_0110#16 = .sub 5 1 6 := by decide
theorem test_decode_adi : decode 0b0111_1010_0001_1011#16 = .adi 10 1#4 11 := by decide
theorem test_decode_sbi : decode 0b1000_0000_1111_0001#16 = .sbi 0 15#4 1 := by decide
theorem test_decode_and : decode 0b1001_0001_0010_0011#16 = .and 1 2 3 := by decide
theorem test_decode_orr : decode 0b1010_0001_0010_0011#16 = .orr 1 2 3 := by decide
theorem test_decode_xor : decode 0b1011_0001_0010_0011#16 = .xor 1 2 3 := by decide
theorem test_decode_not : decode 0b1100_0001_1111_0100#16 = .not 1 4 := by decide
theorem test_decode_shf_left : decode 0b1101_0001_0001_0010#16 = .shf 1 .left 2 2 := by decide
theorem test_decode_shf_right : decode 0b1101_0001_1111_0010#16 = .shf 1 .right 8 2 := by decide
theorem test_decode_brv : decode 0b1110_0001_0010_1101#16 = .brv 1 2 true false true := by decide
theorem test_decode_brf : decode 0b1111_0111_0010_1101#16 = .brf 2 false true := by decide

/-- The fields the encoder writes, against the words of 95_test_vectors.md. -/
theorem test_encode_words :
    encode (.hby 0xAB#8 3) = 0x1AB3#16 ∧ encode (.lod 10 1) = 0x3A01#16 ∧ encode (.sbi 0 1#4 0) = 0x8010#16 ∧
    encode (.shf 1 .right 4 4) = 0xD1B4#16 ∧ encode (.brv 0 2 false false true) = 0xE021#16 ∧
    encode (.brf 3 true false) = 0xF032#16 := by decide

theorem test_decodeTableWord :
    decodeTableWord 16 0x5012 = some (.add 0 1 2) ∧ decodeTableWord 17 0x5012 = none := by decide

/-! ## Single steps (95_test_vectors.md 2.1 to 2.6; examples of the rules) -/

theorem test_end_keeps_pc : stepOf State.pc 0 0 0 0x0FFF#16 = some 0#16 := by decide
theorem test_hby_keeps_low : stepOf (·.reg 3) 0 0 0x1234#16 0x1AB3#16 = some 0xAB34#16 := by decide
theorem test_lby_keeps_high : stepOf (·.reg 3) 0 0 0x1234#16 0x2CD3#16 = some 0x12CD#16 := by decide
theorem test_str_io : stepOf (·.word (.io .one) 0x3FF) 0xFBFF#16 0xABCD#16 0 0x4120#16 = some 0xABCD#16 := by decide
theorem test_str_rom_fault : stepOf State.fault 0x0010#16 0 0 0x4100#16 = some (some (.writeToRom 0x0010#16)) := by
  decide
theorem test_lod_out_of_bounds :
    stepOf (fun s => (s.fault, s.pc)) 0xFFFF#16 0 0 0x3102#16 = some (some (.readOutOfBounds 0xFFFF#16), 0#16) := by
  decide
theorem test_lod_address_read_first :
    (nextOf (step ((machine 0x8000#16 0 0 [0x3101#16]).setRam (Memory.loadWords [] 0 [0x3333#16])))).map (·.reg 1)
      = some 0x3333#16 := by decide
theorem test_add_overflow :
    stepOf (fun s => (s.reg 3, flagsOf s)) 0x8000#16 0xFFFF#16 0 0x5123#16 = some (0x7FFF#16, (true, true)) := by decide
theorem test_add_same_register :
    stepOf (fun s => (s.reg 1, flagsOf s)) 0x8000#16 0 0 0x5111#16 = some (0#16, (true, true)) := by decide
theorem test_sub_borrow :
    stepOf (fun s => (s.reg 3, flagsOf s)) 0x0003#16 0x0005#16 0 0x6123#16 = some (0xFFFE#16, (false, false)) := by decide
theorem test_sub_zero_sets_carry :
    stepOf (fun s => (s.reg 3, flagsOf s)) 0x1234#16 0 0 0x6123#16 = some (0x1234#16, (true, false)) := by decide
theorem test_adi_overflow :
    stepOf (fun s => (s.reg 1, flagsOf s)) 0x7FFF#16 0 0 0x71F1#16 = some (0x800E#16, (false, true)) := by decide
theorem test_sbi_overflow :
    stepOf (fun s => (s.reg 1, flagsOf s)) 0x800E#16 0 0 0x81F1#16 = some (0x7FFF#16, (true, true)) := by decide
theorem test_and : stepOf (·.reg 3) 0xF0F0#16 0xFF00#16 0 0x9123#16 = some 0xF000#16 := by decide
theorem test_orr : stepOf (·.reg 3) 0xF0F0#16 0xFF00#16 0 0xA123#16 = some 0xFFF0#16 := by decide
theorem test_xor : stepOf (·.reg 3) 0xF0F0#16 0xFF00#16 0 0xB123#16 = some 0x0FF0#16 := by decide
theorem test_not : stepOf (·.reg 4) 0xF0F0#16 0 0 0xC104#16 = some 0x0F0F#16 := by decide
theorem test_shf_left :
    stepOf (fun s => (s.reg 2, s.carry)) 0x4005#16 0 0 0xD112#16 = some (0x0014#16, true) := by decide
theorem test_shf_right :
    stepOf (fun s => (s.reg 2, s.carry)) 0x1238#16 0 0 0xD1B2#16 = some (0x0123#16, true) := by decide
theorem test_brv_np_at_zero : stepOf State.pc 0 0x0200#16 0 0xE125#16 = some 1#16 := by decide
theorem test_brv_negative : stepOf State.pc 0x8000#16 0x0200#16 0 0xE124#16 = some 0x0200#16 := by decide
theorem test_brf_carry :
    (nextOf (step ((machine 0 0x0200#16 0 [0xF721#16]).setCarry true))).map State.pc = some 0x0200#16 := by decide
theorem test_brf_not_taken_wraps :
    (nextOf (exec (.brf 2 true true) (State.reset.setPc 0xFFFF#16))).map State.pc = some 0#16 := by decide

/-! ## The fetch of a placed word, and the run loop (95_test_vectors.md 2.7) -/

theorem test_withFetchWord_runs :
    (nextOf (step (State.reset.withFetchWord 16 0x1FF0))).map (·.reg 0) = some 0xFF00#16 := by decide
theorem test_e4_end_counts_one_step :
    (nextOf (runLoop 5 State.reset)).map (fun e => (e.steps, e.halted)) = some (1, true) := by decide
theorem test_e5_swap_overwrites_word_zero :
    (nextOf (runFrame 1 (hostWrite 5 9#16 (hostWrite 0 7#16 State.reset)))).map
      (fun x => (x.2.word (.io .two) 0, x.2.word (.io .two) 5, x.2.active)) = some (0#16, 9#16, .two) := by decide

/-! ## Witnesses: what meets the hypotheses of each statement that has some -/

/-- The state after the step of a machine, for the witnesses below. -/
def afterStep (s : State) : State := (nextOf (step s)).getD s

theorem witness_DecodeEncodeRoundTrip : (Instr.shf 15 .right 8 0).wellFormed = true := by decide
theorem witness_DecodesEveryRowOfTheTable : 15 < 16 ∧ 0 < 16 := by decide
theorem witness_StepRunsTheDecodedInstruction :
    (machine 0 0 0 [0x1AB3#16]).fault = none ∧
    decode ((machine 0 0 0 [0x1AB3#16]).word .prog (machine 0 0 0 [0x1AB3#16]).pc.toNat) = .hby 0xAB#8 3 := by decide
theorem witness_StepReportsHaltedExactlyForEnd : State.reset.fault = none := by decide
theorem witness_FaultedInstanceAcceptsNoStepOrRun :
    (afterStep (machine 0x0010#16 0 0 [0x4100#16])).fault = some (.writeToRom 0x0010#16) := by decide
theorem witness_EndChangesNothing :
    (machine 0 0 0 [0x0FFF#16]).fault = none ∧ fieldOp ((machine 0 0 0 [0x0FFF#16]).word .prog 0) = 0#4 := by decide

/-- Each range of the read and of the write path at both ends. -/
theorem witness_MemWriteByRange :
    (0x0000#16).toNat < 0x8000 ∧ (0x7FFF#16).toNat < 0x8000 ∧
    (0x8000 ≤ (0x8000#16).toNat ∧ (0x8000#16).toNat < 0xF800) ∧
    (0x8000 ≤ (0xF7FF#16).toNat ∧ (0xF7FF#16).toNat < 0xF800) ∧
    (0xF800 ≤ (0xF800#16).toNat ∧ (0xF800#16).toNat < 0xFC00) ∧
    (0xF800 ≤ (0xFBFF#16).toNat ∧ (0xFBFF#16).toNat < 0xFC00) ∧
    0xFC00 ≤ (0xFC00#16).toNat ∧ 0xFC00 ≤ (0xFFFF#16).toNat := by decide
theorem witness_MappedAddressesReachDistinctWords :
    (0xFBFF#16).toNat < 0xFC00 ∧ route 0xFBFF#16 = route 0xFBFF#16 := by decide
theorem witness_LodLoadsTheAddressedWord :
    ((machine 0x7FFF#16 0 0 []).effectiveAddress 1).toNat < 0x8000 ∧
    ((machine 0xF7FF#16 0 0 []).effectiveAddress 1).toNat < 0xF800 ∧
    ((machine 0xFBFF#16 0 0 []).effectiveAddress 1).toNat < 0xFC00 := by decide
theorem witness_LodOutOfBoundsRaises : 0xFC00 ≤ ((machine 0xFC00#16 0 0 []).effectiveAddress 1).toNat := by decide
theorem witness_StrStoresOneWord_ram :
    0x8000 ≤ ((machine 0x8000#16 0xF7FF#16 0 []).effectiveAddress 1).toNat ∧
    ((machine 0x8000#16 0xF7FF#16 0 []).effectiveAddress 2).toNat < 0xF800 := by decide
theorem witness_StrStoresOneWord_io :
    0xF800 ≤ ((machine 0xF800#16 0xFBFF#16 0 []).effectiveAddress 1).toNat ∧
    ((machine 0xF800#16 0xFBFF#16 0 []).effectiveAddress 2).toNat < 0xFC00 := by decide
theorem witness_StrToRomOrOutOfBoundsRaises :
    ((machine 0x7FFF#16 0xFC00#16 0 []).effectiveAddress 1).toNat < 0x8000 ∧
    0xFC00 ≤ ((machine 0x7FFF#16 0xFC00#16 0 []).effectiveAddress 2).toNat := by decide
theorem witness_LoadReturnsTheMostRecentStore :
    ∃ t, exec (.str 1 2) (machine 0x8000#16 7#16 0 []) = .next t ∧ t.fault = none ∧
      (machine 0x8000#16 7#16 0 []).fault = none := ⟨_, rfl, rfl, rfl⟩
theorem witness_ShfShiftsAndCarries : (1 ≤ 1 ∧ 1 ≤ 8) ∧ 1 ≤ 8 ∧ 8 ≤ 8 := by decide

theorem witness_FaultsArePrecise :
    ∃ t, step (machine 0x0010#16 0 0 [0x4100#16]) = .next t ∧ t.fault = some (.writeToRom 0x0010#16) :=
  ⟨_, rfl, rfl⟩
theorem witness_OnlyLodAndStrRaiseFaults_lod :
    ∃ t, step (machine 0xFC00#16 0 0 [0x3102#16]) = .next t ∧ t.fault = some (.readOutOfBounds 0xFC00#16) :=
  ⟨_, rfl, rfl⟩
theorem witness_OnlyLodAndStrRaiseFaults_str :
    ∃ t, step (machine 0xFC00#16 0 0 [0x4120#16]) = .next t ∧ t.fault = some (.writeOutOfBounds 0xFC00#16) :=
  ⟨_, rfl, rfl⟩
theorem witness_MappedAccessesNeverFault :
    (machine 0xFBFF#16 5#16 0 [0x4120#16]).fault = none ∧
    ∀ (j : Nat) (u : State), j < 1 → Sys2Proof.core.run j (machine 0xFBFF#16 5#16 0 [0x4120#16]) = .next u →
      accessOk u.fetched u = true := by
  refine ⟨by decide, fun j u hj hu => ?_⟩
  rw [Nat.lt_one_iff.mp hj] at hu
  have he : machine 0xFBFF#16 5#16 0 [0x4120#16] = u := by injection hu
  rw [← he]
  decide
theorem witness_OnlyArithmeticAndShiftWriteFlags :
    ∃ t, step (machine 0x8000#16 0xFFFF#16 0 [0x5123#16]) = .next t ∧
      t.carry ≠ (machine 0x8000#16 0xFFFF#16 0 [0x5123#16]).carry ∧
      t.overflow ≠ (machine 0x8000#16 0xFFFF#16 0 [0x5123#16]).overflow :=
  ⟨_, rfl, by decide, by decide⟩
theorem witness_OnlyTheDestinationRegisterChanges :
    ∃ t, step (machine 0 0 0 [0x1AB3#16]) = .next t ∧ t.reg 3 ≠ (machine 0 0 0 [0x1AB3#16]).reg 3 :=
  ⟨_, rfl, by decide⟩
theorem witness_PcChangesInFourWays_advance :
    advances (machine 0 0 0 [0x1AB3#16]).fetched = true ∧ (afterStep (machine 0 0 0 [0x1AB3#16])).fault = none := by
  decide
theorem witness_PcChangesInFourWays_branch :
    (machine 0 0 0 [0xE127#16]).fetched = .brv 1 2 true true true ∧
    (machine 0 0 0 [0xF023#16]).fetched = .brf 2 true true := by decide
theorem witness_PcChangesInFourWays_stay :
    State.reset.fetched = .endFrame ∧ (afterStep (machine 0 0 0 [0x4100#16])).fault ≠ none := by decide

/-- A well-formed state with a step: for StepsKeepWellFormedness, StepsKeepProgramRomSelectorAndInactiveBuffer and
InactiveBufferIsInvisibleToAStep. -/
theorem witness_step_of_a_wellFormed_state :
    (machine 0xF800#16 5#16 0 [0x4120#16]).wf = true ∧
    ∃ t, step (machine 0xF800#16 5#16 0 [0x4120#16]) = .next t := ⟨by decide, _, rfl⟩
theorem witness_RunOutputIgnoresTheInactiveBuffer :
    ∃ r t, runFrame 2 (machine 0xF800#16 5#16 0 [0x4120#16]) = .next (r, t) := ⟨_, _, rfl⟩
theorem witness_ConstructionIsWellFormed : ∃ s, construct [0x1AB3#16] [20#16, 70#16] = .ok s := ⟨_, rfl⟩

/-- Every command completes on a well-formed state: for CommandsKeepWellFormedness and
CommandsNeverChangeProgramOrRom. -/
theorem witness_commands_complete :
    State.reset.wf = true ∧ (∃ x, perform .step State.reset = .next x) ∧ (∃ x, perform (.run 1) State.reset = .next x) ∧
    (∃ x, perform (.hostRead 0) State.reset = .next x) ∧ (∃ x, perform (.hostWrite 1023 7#16) State.reset = .next x) ∧
    ∃ x, perform .observe State.reset = .next x :=
  ⟨by decide, ⟨_, rfl⟩, ⟨_, rfl⟩, ⟨_, rfl⟩, ⟨_, rfl⟩, ⟨_, rfl⟩⟩
theorem witness_CanonicalStoresAreEqualWhenTheyReadTheSame :
    Memory.wf [(0, 1#8), (3, 2#8)] = true ∧ Memory.wf [(3, 0#8)] = false ∧ Memory.wf [(3, 1#8), (0, 1#8)] = false := by
  decide

/-- A loop that ends at END before its budget: for FramesStayWithinTheirBudget and FrameIsIteratedSteps. -/
theorem witness_loop_ends_at_end :
    ∃ e, runLoop 3 (machine 0 0 0 [0x1AB3#16]) = .next e ∧ e.steps = 2 ∧ e.halted = true := ⟨_, rfl, rfl, rfl⟩

/-- A loop that ends at a fault before its budget. -/
theorem witness_loop_ends_at_a_fault :
    ∃ e, runLoop 3 (machine 0 0 0 [0x1AB3#16, 0x4100#16]) = .next e ∧ e.steps = 2 ∧ e.state.fault ≠ none :=
  ⟨_, rfl, rfl, by decide⟩
theorem witness_EveryRunEndsWithSwapOrFault : (machine 0 0 0 [0x4100#16]).fault = none := by decide

/-- A run that swaps: for TwoEmptyRunsRestoreTheSelector and RunStartsAtTheFrameSyncCell, with run(0) and with steps. -/
theorem witness_run_swaps :
    State.reset.fault = none ∧ (∃ out t, runFrame 0 State.reset = .next (.buffer out, t)) ∧
    ∃ out t, runFrame 1 State.reset = .next (.buffer out, t) := ⟨rfl, ⟨_, _, rfl⟩, ⟨_, _, rfl⟩⟩

/-- A run whose STR to 0xF800 sets the word 0 that the swap then copies (95_test_vectors.md 2.2; 40_engine.md R84). -/
theorem witness_RunSwapsTheBuffers :
    ∃ out t, runFrame 1 (machine 0xF800#16 5#16 0 [0x4120#16]) = .next (.buffer out, t) ∧
      t.word (.io .two) 0 = 5#16 ∧ t.word (.io .one) 0 = 5#16 := ⟨_, _, rfl, by decide, by decide⟩

/-- A fault in a run's first step, and one after a completed step. -/
theorem witness_FaultInsideARunSkipsTheSwap :
    (∃ t, runFrame 1 (machine 0x0010#16 0 0 [0x4100#16]) = .next (.raised (.writeToRom 0x0010#16), t)) ∧
    ∃ t, runFrame 9 (machine 0x0010#16 0 0 [0x1AB3#16, 0x4100#16]) = .next (.raised (.writeToRom 0x0010#16), t) :=
  ⟨⟨_, rfl⟩, ⟨_, rfl⟩⟩
theorem witness_PcAfterNonBranchingSteps :
    ∃ t : State, Sys2Proof.core.run 1 (machine 0 0 0 [0x1AB3#16]) = .next t ∧ t.fault = none ∧
      ∀ j < 1, ∃ u : State, Sys2Proof.core.run j (machine 0 0 0 [0x1AB3#16]) = .next u ∧ advances u.fetched = true :=
  ⟨_, rfl, rfl, fun j hj => ⟨machine 0 0 0 [0x1AB3#16], by rw [Nat.lt_one_iff.mp hj]; rfl, by decide⟩⟩
theorem witness_ConstructionPlacesTheImages :
    (List.replicate 65536 0x1AB3#16).length ≤ 65536 ∧ (List.replicate 32768 7#16).length ≤ 32768 :=
  ⟨le_of_eq List.length_replicate, le_of_eq List.length_replicate⟩
theorem witness_ConstructionErrors :
    65536 < (List.replicate 65537 0#16).length ∧ 32768 < (List.replicate 32769 0#16).length := by
  rw [List.length_replicate, List.length_replicate]
  decide

end Sys2Proof.Tests
end

section
/-! Proofs of the statements of 10_state.md: the pc after non-branching steps (R26) and the registers after
construction (R21). -/

namespace Sys2Proof.Machine

/-! ### Instructions that advance the pc -/

/-- An instruction that advances the pc either completes at the next address without touching the fault record, or
raises a fault and does nothing else (10_state.md R25, 60_exceptions.md R119). -/
theorem exec_next_cases_of_advances {i : Instr} {s t : State} (ha : advances i = true) (h : exec i s = .next t) :
    (t.pc = s.pc + 1#16 ∧ t.fault = s.fault) ∨ ∃ r, t = s.raiseFault r := by
  cases i with
  | endFrame | brv | brf => cases ha
  | lod a d =>
    obtain ⟨v, -, rfl⟩ | ⟨r, -, rfl⟩ := afterAccess_next_cases h
    · exact .inl ⟨rfl, rfl⟩
    · exact .inr ⟨r, rfl⟩
  | str a b =>
    obtain ⟨u, hu, rfl⟩ | ⟨r, -, rfl⟩ := afterAccess_next_cases h
    · obtain ⟨k, -, -, rfl⟩ | ⟨k, -, -, rfl⟩ := memWrite_ok_cases hu <;> simp
    · exact .inr ⟨r, rfl⟩
  | hby | lby | add | sub | adi | sbi | and | orr | xor | not | shf => cases h; exact .inl ⟨rfl, rfl⟩

/-- A completed step of an instruction that advances the pc (10_state.md R25). -/
theorem step_pc_of_advances {s t : State} (h : step s = .next t) (ha : advances s.fetched = true)
    (hf : t.fault = none) : t.pc = s.pc + 1#16 := by
  obtain ⟨-, hexec⟩ := step_next_inv h
  obtain ⟨hpc, -⟩ | ⟨r, rfl⟩ := exec_next_cases_of_advances ha hexec
  · exact hpc
  · simp at hf

/-! ### Runs of the machine -/

theorem core_run_zero_next_iff {s t : State} : Sys2Proof.core.run 0 s = .next t ↔ s = t :=
  ⟨fun h => by cases h; rfl, fun h => h ▸ rfl⟩

/-- A run that ends without a fault started without one: a recorded fault allows no further step
(60_exceptions.md R121). -/
theorem core_run_start_fault_none {k : Nat} {s t : State} (h : Sys2Proof.core.run k s = .next t)
    (hf : t.fault = none) : s.fault = none := by
  cases k with
  | zero => rwa [core_run_zero_next_iff.mp h]
  | succ k =>
    obtain ⟨u, hstep, -⟩ := core_run_succ_next_inv h
    exact (step_next_inv hstep).1

/-- Settles O51, by induction on the number of steps with the start state general: the first step adds 1 to the pc
modulo 65536, and the remaining run starts one state later. -/
theorem pcAfterNonBranchingSteps : Obligations.PcAfterNonBranchingSteps := by
  unfold Obligations.PcAfterNonBranchingSteps
  intro k
  induction k with
  | zero =>
    intro s t h _ _
    rw [core_run_zero_next_iff.mp h, Nat.add_zero, Nat.mod_eq_of_lt t.pc.isLt]
  | succ k ih =>
    intro s t h hf hadv
    obtain ⟨u, hstep, hrest⟩ := core_run_succ_next_inv h
    have hfirst : advances s.fetched = true := by
      obtain ⟨s', hs', ha⟩ := hadv 0 k.succ_pos
      rwa [core_run_zero_next_iff.mp hs']
    have hlater : ∀ j < k, ∃ v : State, Sys2Proof.core.run j u = .next v ∧ advances v.fetched = true := by
      intro j hj
      rw [← core_run_succ_of_next hstep]
      exact hadv (j + 1) (Nat.succ_lt_succ hj)
    have hpc : u.pc = s.pc + 1#16 := step_pc_of_advances hstep hfirst (core_run_start_fault_none hrest hf)
    calc t.pc.toNat = (u.pc.toNat + k) % 65536 := ih u t hrest hf hlater
      _ = ((s.pc.toNat + 1) % 65536 + k) % 65536 := by rw [hpc, BitVec.toNat_add]; rfl
      _ = (s.pc.toNat + (k + 1)) % 65536 := by omega

/-! ### Construction -/

@[simp] theorem State.reset_reg (r : Reg) : State.reset.reg r = 0#16 := Vector.getElem_replicate r.isLt

/-- Construction that succeeds places the two images into the reset state (70_reset_and_hazards.md R129). -/
theorem construct_ok_inv {program data : List Word} {s : State} (h : construct program data = .ok s) :
    lengthError program data = none ∧
      s = (State.reset.setProg (Memory.loadWords [] 0 program)).setRom (Memory.loadWords [] 0 data) := by
  unfold construct at h
  split at h
  · cases h
  · next hlen => cases h; exact ⟨hlen, rfl⟩

/-- Settles O53: placing the images leaves the registers of the reset state, which are 0. -/
theorem constructedRegistersAreZero : Obligations.ConstructedRegistersAreZero := by
  unfold Obligations.ConstructedRegistersAreZero
  intro program data s h r
  obtain ⟨-, rfl⟩ := construct_ok_inv h
  rw [State.setRom_reg, State.setProg_reg, State.reset_reg]

end Sys2Proof.Machine
end

section
/-! Proofs of the statements of 20_memory.md: the read path (R43) and the write path (R44). -/

namespace Sys2Proof.Machine

/-! ### A word of a store after one write -/

/-- Writing one RAM word changes that word and no other word of any store (20_memory.md R44, R46). -/
theorem State.word_setRam_writeWord (s : State) (i : Nat) (v : Word) (k : Store) (j : Nat) :
    (s.setRam (s.ram.writeWord i v)).word k j = if k = .ram ∧ j = i then v else s.word k j := by
  cases k with
  | ram => simpa [State.word, State.store] using s.ram.readWord_writeWord i j v
  | prog | rom | io => simp [State.word, State.store]

/-- Writing one word of an I/O buffer changes that word and no other word of any store, the other buffer included
(20_memory.md R44, R47). -/
theorem State.word_writeBuffer (s : State) (b : Bank) (i : Nat) (v : Word) (k : Store) (j : Nat) :
    (s.writeBuffer b i v).word k j = if k = .io b ∧ j = i then v else s.word k j := by
  cases k with
  | io c =>
    by_cases hc : c = b
    · subst hc
      simpa [State.word, State.store, State.buffer_writeBuffer] using (s.buffer c).readWord_writeWord i j v
    · simp [State.word, State.store, State.buffer_writeBuffer, hc]
  | prog | rom | ram => simp [State.word, State.store]

/-- What a rule "word `i` of store `k` becomes `v`, every other word stays" says of that word and of the rest. -/
theorem word_eq_and_sameMemoryBut {s t : State} {k : Store} {i : Nat} {v : Word}
    (h : ∀ k' i', t.word k' i' = if k' = k ∧ i' = i then v else s.word k' i') :
    t.word k i = v ∧ SameMemoryBut k i s t :=
  ⟨by rw [h, if_pos ⟨rfl, rfl⟩], fun k' i' hne => by rw [h, if_neg hne]⟩

/-! ### The two access paths, range by range -/

theorem memRead_rom {addr : Word} (s : State) (h : addr.toNat < Config.ramBase) :
    memRead addr s = .ok (s.word .rom addr.toNat) := by
  rw [memRead, route_rom h]; rfl

theorem memRead_ram {addr : Word} (s : State) (h : Config.ramBase ≤ addr.toNat) (h' : addr.toNat < Config.ioBase) :
    memRead addr s = .ok (s.word .ram (addr.toNat - Config.ramBase)) := by
  rw [memRead, route_ram h h']; rfl

theorem memRead_io {addr : Word} (s : State) (h : Config.ioBase ≤ addr.toNat) (h' : addr.toNat < Config.ioLimit) :
    memRead addr s = .ok (s.word (.io s.active) (addr.toNat - Config.ioBase)) := by
  rw [memRead, route_io h h']; rfl

theorem memRead_unmapped {addr : Word} (s : State) (h : Config.ioLimit ≤ addr.toNat) :
    memRead addr s = .error (.readOutOfBounds addr) := by
  rw [memRead, route_unmapped h]

theorem memWrite_rom {addr : Word} (v : Word) (s : State) (h : addr.toNat < Config.ramBase) :
    memWrite addr v s = .error (.writeToRom addr) := by
  rw [memWrite, route_rom h]

theorem memWrite_ram {addr : Word} (v : Word) (s : State) (h : Config.ramBase ≤ addr.toNat)
    (h' : addr.toNat < Config.ioBase) :
    memWrite addr v s = .ok (s.setRam (s.ram.writeWord (addr.toNat - Config.ramBase) v)) := by
  rw [memWrite, route_ram h h']

theorem memWrite_io {addr : Word} (v : Word) (s : State) (h : Config.ioBase ≤ addr.toNat)
    (h' : addr.toNat < Config.ioLimit) :
    memWrite addr v s = .ok (s.writeBuffer s.active (addr.toNat - Config.ioBase) v) := by
  rw [memWrite, route_io h h']

theorem memWrite_unmapped {addr : Word} (v : Word) (s : State) (h : Config.ioLimit ≤ addr.toNat) :
    memWrite addr v s = .error (.writeOutOfBounds addr) := by
  rw [memWrite, route_unmapped h]

/-- A write that is accepted leaves the pc, the registers, the flags, the selector and the fault record
(20_memory.md R44). -/
theorem memWrite_ok_frame {addr v : Word} {s t : State} (h : memWrite addr v s = .ok t) :
    t.pc = s.pc ∧ SameRegs s t ∧ SameFlags s t ∧ SameControl s t := by
  obtain ⟨k, -, -, rfl⟩ | ⟨k, -, -, rfl⟩ := memWrite_ok_cases h
  · exact ⟨rfl, fun _ => rfl, ⟨rfl, rfl⟩, rfl, rfl⟩
  · exact ⟨s.writeBuffer_pc .., fun _ => s.writeBuffer_reg ..,
      ⟨s.writeBuffer_carry .., s.writeBuffer_overflow ..⟩, s.writeBuffer_active .., s.writeBuffer_fault ..⟩

/-! ### The statements -/

/-- Settles O15, range by range: each accepted write replaces one word of one store, and the frame does not depend on
which. -/
theorem memWriteByRange : Obligations.MemWriteByRange := by
  unfold Obligations.MemWriteByRange
  intro addr v s
  refine ⟨memWrite_rom v s, fun hlo hhi => ?ram, fun hlo hhi => ?io, memWrite_unmapped v s⟩
  case ram =>
    have hw := memWrite_ram v s hlo hhi
    obtain ⟨hword, hrest⟩ := word_eq_and_sameMemoryBut (s.word_setRam_writeWord (addr.toNat - 0x8000) v)
    exact ⟨_, hw, hword, hrest, memWrite_ok_frame hw⟩
  case io =>
    have hw := memWrite_io v s hlo hhi
    obtain ⟨hword, hrest⟩ := word_eq_and_sameMemoryBut (s.word_writeBuffer s.active (addr.toNat - 0xF800) v)
    exact ⟨_, hw, hword, hrest, memWrite_ok_frame hw⟩

/-- Settles O14: the branch taken gives the range of the address, and the read rule of that range gives the answer. -/
theorem memReadByRange : Obligations.MemReadByRange := by
  unfold Obligations.MemReadByRange
  intro addr s
  split_ifs with hrom hram hio
  · exact memRead_rom s hrom
  · exact memRead_ram s (not_lt.mp hrom) hram
  · exact memRead_io s (not_lt.mp hram) hio
  · exact memRead_unmapped s (not_lt.mp hio)

end Sys2Proof.Machine
end

section
/-! Proofs of the statements of 40_engine.md: the swap that ends a run (R84, R85) and two runs of no instruction
(R86). -/

namespace Sys2Proof.Machine

/-! ### What no step changes -/

/-- Program memory, the data ROM, the selector and the inactive buffer are the same: no instruction reaches them
(10_state.md R32, R35; 20_memory.md R45, R47). -/
structure StepFrame (s t : State) : Prop where
  prog : t.prog = s.prog
  rom : t.rom = s.rom
  active : t.active = s.active
  inactive : t.buffer s.active.other = s.buffer s.active.other

theorem StepFrame.refl (s : State) : StepFrame s s := ⟨rfl, rfl, rfl, rfl⟩

theorem StepFrame.trans {s t u : State} (h : StepFrame s t) (h' : StepFrame t u) : StepFrame s u where
  prog := h'.prog.trans h.prog
  rom := h'.rom.trans h.rom
  active := h'.active.trans h.active
  inactive := by
    have hbuf := h'.inactive
    rw [h.active] at hbuf
    exact hbuf.trans h.inactive

/-- An accepted write goes to the RAM or to the active buffer (20_memory.md R44, R47). -/
theorem memWrite_ok_stepFrame {addr v : Word} {s t : State} (h : memWrite addr v s = .ok t) : StepFrame s t := by
  obtain ⟨k, -, -, rfl⟩ | ⟨k, -, -, rfl⟩ := memWrite_ok_cases h
  · exact ⟨rfl, rfl, rfl, rfl⟩
  · refine ⟨s.writeBuffer_prog .., s.writeBuffer_rom .., s.writeBuffer_active .., ?_⟩
    rw [State.buffer_writeBuffer, if_neg s.active.other_ne]

theorem exec_next_stepFrame {i : Instr} {s t : State} (h : exec i s = .next t) : StepFrame s t := by
  cases i with
  | lod a d => obtain ⟨v, -, rfl⟩ | ⟨r, -, rfl⟩ := afterAccess_next_cases h <;> exact ⟨rfl, rfl, rfl, rfl⟩
  | str a b =>
    obtain ⟨u, hu, rfl⟩ | ⟨r, -, rfl⟩ := afterAccess_next_cases h
    · exact (memWrite_ok_stepFrame hu).trans ⟨rfl, rfl, rfl, rfl⟩
    · exact ⟨rfl, rfl, rfl, rfl⟩
  | brv | brf => cases h; rw [branchTo_eq_setPc]; exact ⟨rfl, rfl, rfl, rfl⟩
  | endFrame | hby | lby | add | sub | adi | sbi | and | orr | xor | not | shf => cases h; exact ⟨rfl, rfl, rfl, rfl⟩

theorem step_next_stepFrame {s t : State} (h : step s = .next t) : StepFrame s t :=
  exec_next_stepFrame (step_next_inv h).2

/-! ### The run loop -/

/-- What every step keeps, the run loop keeps: its end state is reached by steps alone (40_engine.md R80). -/
theorem runLoop_preserves {P : State → Prop} (hstep : ∀ s t, P s → step s = .next t → P t) {n : Nat} {s : State}
    {e : FrameEnd} (h : runLoop n s = .next e) (hs : P s) : P e.state := by
  induction n generalizing s e with
  | zero => cases h; exact hs
  | succ n ih =>
    obtain ⟨t, hst, ⟨-, -, e', he', rfl⟩ | ⟨-, -, rfl⟩ | ⟨-, rfl⟩⟩ := runLoop_succ_inv h
    · exact ih (e := e') he' (hstep s t hs hst)
    · exact hstep s t hs hst
    · exact hstep s t hs hst

theorem runLoop_stepFrame {n : Nat} {s : State} {e : FrameEnd} (h : runLoop n s = .next e) : StepFrame s e.state :=
  runLoop_preserves (fun _ _ hs hst => hs.trans (step_next_stepFrame hst)) h (.refl s)

/-- The loop of a run keeps what no step changes: loading the pc before the first step leaves all of it
(40_engine.md R81). -/
theorem runLoop_syncPc_stepFrame {n : Nat} {s : State} {e : FrameEnd} (h : runLoop n s.syncPc = .next e) :
    StepFrame s e.state :=
  .trans (t := s.syncPc) ⟨rfl, rfl, rfl, rfl⟩ (runLoop_stepFrame h)

/-! ### The swap and the returned buffer -/

@[simp] theorem State.setActive_word (s : State) (b : Bank) (k : Store) (i : Nat) :
    (s.setActive b).word k i = s.word k i := by
  cases k <;> rfl

/-- The swap changes word 0 of the incoming buffer and no other word of any store (40_engine.md R84). -/
theorem State.swap_word (s : State) (k : Store) (i : Nat) :
    s.swap.word k i = if k = .io s.active.other ∧ i = 0 then s.word (.io s.active) 0 else s.word k i := by
  rw [State.swap, State.setActive_word, State.word_writeBuffer]
  rfl

/-- The swap leaves the outgoing buffer (40_engine.md R84, R85). -/
theorem State.swap_buffer_outgoing (s : State) : s.swap.buffer s.active = s.buffer s.active := by
  rw [State.swap_buffer, if_neg s.active.other_ne.symm]

theorem length_bufferWords (m : Memory) : (bufferWords m).length = 1024 := m.length_readWords 0 1024

theorem getElem?_bufferWords (m : Memory) {i : Nat} (h : i < 1024) : (bufferWords m)[i]? = some (m.readWord i) := by
  rw [bufferWords, m.getElem?_readWords 0 Config.ioWords i h, Nat.zero_add]

/-- A run that returns a buffer ran the loop to a state without a fault, swapped there, and returned the words of
the buffer that was active in that state (40_engine.md R80, R84, R85). -/
theorem runFrame_buffer_inv {n : Nat} {s t : State} {out : List Word} (h : runFrame n s = .next (.buffer out, t)) :
    ∃ e, runLoop n s.syncPc = .next e ∧ e.state.fault = none ∧ t = e.state.swap ∧
      out = bufferWords (e.state.buffer e.state.active) := by
  obtain ⟨-, e, hloop, hfinish⟩ := runFrame_next_inv h
  obtain ⟨f, -, hraised, -⟩ | ⟨hfault, hbuffer, hswap⟩ := finishRun_cases hfinish
  · cases hraised
  · rw [State.swap_buffer_outgoing] at hbuffer
    exact ⟨e, hloop, hfault, hswap, RunReply.buffer.inj hbuffer⟩

/-- Settles O47: the loop keeps the selector and the inactive buffer, so the swap at its end is between the buffers of
the run's start, and the incoming one still holds what it held there. -/
theorem runSwapsTheBuffers : Obligations.RunSwapsTheBuffers := by
  unfold Obligations.RunSwapsTheBuffers
  intro n s t out h
  obtain ⟨e, hloop, hfault, rfl, rfl⟩ := runFrame_buffer_inv h
  obtain ⟨-, -, hactive, hinactive⟩ := runLoop_syncPc_stepFrame hloop
  obtain ⟨hsync, hrest⟩ := word_eq_and_sameMemoryBut e.state.swap_word
  rw [hactive] at hsync hrest ⊢
  have hincoming (i : Nat) (hi : 0 < i) :
      e.state.swap.word (.io s.active.other) i = s.word (.io s.active.other) i :=
    calc e.state.swap.word (.io s.active.other) i
        = e.state.word (.io s.active.other) i := hrest _ i fun heq => hi.ne' heq.2
      _ = s.word (.io s.active.other) i := congrArg (Memory.readWord · i) hinactive
  exact ⟨e, hloop, hfault, by rw [State.swap_active, hactive], hsync, hrest, hincoming, e.state.swap_pc,
    e.state.swap_reg, ⟨e.state.swap_carry, e.state.swap_overflow⟩, by rw [State.swap_fault, hfault],
    length_bufferWords _, fun i hi => getElem?_bufferWords _ hi⟩

/-! ### Runs of no instruction -/

/-- Without a fault the loop is followed by the swap, and the outgoing buffer is returned (40_engine.md R84, R85). -/
theorem finishRun_of_fault_none {s : State} (h : s.fault = none) :
    finishRun s = (.buffer (bufferWords (s.buffer s.active)), s.swap) := by
  rw [finishRun, h, State.swap_buffer_outgoing]

/-- A run of no instruction loads the pc and swaps (40_engine.md R81, R82, R84). -/
theorem runFrame_zero {s : State} (h : s.fault = none) :
    runFrame 0 s = .next (.buffer (bufferWords (s.buffer s.active)), s.syncPc.swap) := by
  rw [runFrame, h]
  exact congrArg _ (finishRun_of_fault_none (s := s.syncPc) h)

/-- Settles O48: each run flips the selector, and flipping it twice gives it back. -/
theorem twoEmptyRunsRestoreTheSelector : Obligations.TwoEmptyRunsRestoreTheSelector := by
  unfold Obligations.TwoEmptyRunsRestoreTheSelector
  intro s h
  have hfault : s.syncPc.swap.fault = none := s.syncPc.swap_fault.trans h
  exact ⟨_, _, _, _, runFrame_zero h, rfl, runFrame_zero hfault, s.active.other_other⟩

end Sys2Proof.Machine
end

section
/-! Proofs of the statements of 43_arithmetic.md: the adder (R98). -/

namespace Sys2Proof.Machine

/-- The model's sum, with the carry-in as the number the spec adds (43_arithmetic.md R98). -/
theorem adderSum_eq_add_ite (p q : Word) (cin : Bool) :
    adderSum p q cin = p.toNat + q.toNat + (if cin then 1 else 0) := by
  rw [adderSum, Bool.toNat, Bool.cond_eq_ite]

/-- The sign rule over numbers: a word is negative exactly from 32768 on (43_arithmetic.md R98; 00_scope.md R10). -/
theorem adderOverflow_iff (p q : Word) (cin : Bool) :
    adderOverflow p q cin = true ↔
      (32768 ≤ p.toNat ∧ 32768 ≤ q.toNat ∧ adderSum p q cin % 65536 < 32768) ∨
      (p.toNat < 32768 ∧ q.toNat < 32768 ∧ 32768 ≤ adderSum p q cin % 65536) := by
  simp [adderOverflow, isNegative_eq, adderResult_toNat, and_assoc]

@[simp] theorem basicAdd_word (p q : Word) (cin : Bool) (d : Reg) (s : State) (k : Store) (i : Nat) :
    (basicAdd p q cin d s).word k i = s.word k i := by
  cases k <;> rfl

/-- Settles O22: the result and the carry are the definitions over the unbounded sum, the overflow is the sign rule
over numbers, and the adder writes one register and the two flags. -/
theorem basicAddFollowsTheAdderRule : Obligations.BasicAddFollowsTheAdderRule := by
  unfold Obligations.BasicAddFollowsTheAdderRule
  intro p q cin d s
  dsimp only
  rw [← adderSum_eq_add_ite]
  exact ⟨basicAdd_reg_same p q cin d s, basicAdd_carry p q cin d s, adderOverflow_iff p q cin,
    basicAdd_pc p q cin d s, fun r hr => basicAdd_reg_other p q cin d r s hr, basicAdd_word p q cin d s,
    basicAdd_active p q cin d s, basicAdd_fault p q cin d s⟩

end Sys2Proof.Machine
end

section
/-! Proofs of the statements of 44_logic_and_shift.md: the bitwise operations (R106). -/

namespace Sys2Proof.Machine

/-- What writing a result register and advancing the pc leaves unchanged (10_state.md R22, R25). -/
theorem onlyRegAndPc_setReg_advancePc (d : Reg) (v : Word) (s : State) :
    OnlyRegAndPc d s (s.setReg d v).advancePc := by
  have hregs : SameRegsBut d s (s.setReg d v).advancePc := fun r hr => s.reg_setReg_other d r v hr
  have hmem : SameMemory s (s.setReg d v).advancePc := fun k _ => by cases k <;> rfl
  exact ⟨hregs, ⟨rfl, rfl⟩, hmem, rfl, rfl⟩

/-- The effect of an instruction that writes one word to a register and advances the pc, bit by bit
(44_logic_and_shift.md R106). -/
theorem exec_bits_of_setReg_advancePc {i : Instr} {s : State} {d : Reg} {v : Word} {bit : Nat → Bool}
    (hexec : exec i s = .next (s.setReg d v).advancePc) (hbits : ∀ k < 16, v.getLsbD k = bit k) :
    ∃ t, exec i s = .next t ∧ (∀ k < 16, (t.reg d).getLsbD k = bit k) ∧ t.pc = s.pc + 1#16 ∧
      OnlyRegAndPc d s t := by
  refine ⟨_, hexec, fun k hk => ?_, rfl, onlyRegAndPc_setReg_advancePc d v s⟩
  rw [State.advancePc_reg, State.reg_setReg_same, hbits k hk]

/-- Settles O25: each operation writes one word, and the library gives its bits from the operands' bits. -/
theorem bitwiseOpsWorkBitByBit : Obligations.BitwiseOpsWorkBitByBit := by
  unfold Obligations.BitwiseOpsWorkBitByBit
  intro a b d s
  refine ⟨?and, ?orr, ?xor, ?not⟩
  case and => exact exec_bits_of_setReg_advancePc rfl fun _ _ => BitVec.getLsbD_and
  case orr => exact exec_bits_of_setReg_advancePc rfl fun _ _ => BitVec.getLsbD_or
  case xor => exact exec_bits_of_setReg_advancePc rfl fun _ _ => BitVec.getLsbD_xor
  case not =>
    have hnot (k : Nat) (hk : k < 16) : (~~~(s.reg a)).getLsbD k = !(s.reg a).getLsbD k := by
      rw [BitVec.getLsbD_not, decide_eq_true hk, Bool.true_and]
    exact exec_bits_of_setReg_advancePc rfl hnot

end Sys2Proof.Machine
end

section
/-! Proofs of the statements of 60_exceptions.md: the errors of construction (R116, R118). -/

namespace Sys2Proof.Machine

theorem construct_error_iff {program data : List Word} {e : ConstructError} :
    construct program data = .error e ↔ lengthError program data = some e := by
  unfold construct
  cases lengthError program data <;> simp

theorem lengthError_eq_none_iff {program data : List Word} :
    lengthError program data = none ↔ program.length ≤ 65536 ∧ data.length ≤ 32768 := by
  unfold lengthError Config.progWords Config.romWords
  split_ifs <;> simp <;> omega

/-- A length error names an input that is too long, whichever of two it names (60_exceptions.md R116, R118). -/
theorem lengthError_some_cases {program data : List Word} {e : ConstructError}
    (h : lengthError program data = some e) :
    (e = .programTooLong ∧ 65536 < program.length) ∨ (e = .dataTooLong ∧ 32768 < data.length) := by
  unfold lengthError at h
  split at h
  case isTrue hprog =>
    split at h
    case isTrue hdata =>
      cases h
      cases Config.reportsProgramTooLong program data
      · exact .inr ⟨rfl, hdata⟩
      · exact .inl ⟨rfl, hprog⟩
    case isFalse => cases h; exact .inl ⟨rfl, hprog⟩
  case isFalse =>
    split at h
    case isTrue hdata => cases h; exact .inr ⟨rfl, hdata⟩
    case isFalse => cases h

theorem exists_construct_error_iff {program data : List Word} :
    (∃ e, construct program data = .error e) ↔ 65536 < program.length ∨ 32768 < data.length := by
  calc (∃ e, construct program data = .error e)
      ↔ ∃ e, lengthError program data = some e := exists_congr fun _ => construct_error_iff
    _ ↔ lengthError program data ≠ none := Option.ne_none_iff_exists'.symm
    _ ↔ 65536 < program.length ∨ 32768 < data.length := by rw [Ne, lengthError_eq_none_iff]; omega

/-- Settles O55: construction fails with the length error and no other way, and a length error names an input that is
too long, whatever the free value of log 11 answers. -/
theorem constructionErrors : Obligations.ConstructionErrors := by
  unfold Obligations.ConstructionErrors
  intro program data
  have hcases {e : ConstructError} (h : construct program data = .error e) :=
    lengthError_some_cases (construct_error_iff.mp h)
  refine ⟨exists_construct_error_iff.symm, fun h => ?programTooLong, fun h => ?dataTooLong, fun h => ?mismatch⟩
  case programTooLong => simpa using hcases h
  case dataTooLong => simpa using hcases h
  case mismatch => simpa using hcases h

end Sys2Proof.Machine
end

section
/-! Proofs of the statements of 30_encoding.md: the decoder and the encoder over the four fields of a word, the two
round trips, and the table. -/

namespace Sys2Proof

open Laws.EncodesOpcode (fieldOp_packFields)

/-! ### The four fields of a word -/

theorem toNat_append_eq {m n : Nat} (x : BitVec m) (y : BitVec n) : (x ++ y).toNat = x.toNat * 2 ^ n + y.toNat := by
  rw [BitVec.toNat_append, ← Nat.shiftLeft_add_eq_or_of_lt y.isLt, Nat.shiftLeft_eq]

theorem packFields_toNat (op a b c : Nibble) :
    (packFields op a b c).toNat = op.toNat * 4096 + a.toNat * 256 + b.toNat * 16 + c.toNat := by
  rw [packFields, toNat_append_eq, toNat_append_eq, toNat_append_eq]
  omega

theorem fieldA_toNat (w : Word) : (fieldA w).toNat = w.toNat / 256 % 16 := by
  rw [fieldA, BitVec.extractLsb'_toNat, Nat.shiftRight_eq_div_pow]

theorem fieldB_toNat (w : Word) : (fieldB w).toNat = w.toNat / 16 % 16 := by
  rw [fieldB, BitVec.extractLsb'_toNat, Nat.shiftRight_eq_div_pow]

theorem fieldC_toNat (w : Word) : (fieldC w).toNat = w.toNat % 16 := by
  rw [fieldC, BitVec.extractLsb'_toNat, Nat.shiftRight_zero]

theorem fieldOp_toNat (w : Word) : (fieldOp w).toNat = w.toNat / 4096 := by
  have hw := w.isLt
  rw [fieldOp, BitVec.extractLsb'_toNat, Nat.shiftRight_eq_div_pow]
  omega

@[simp] theorem fieldA_packFields (op a b c : Nibble) : fieldA (packFields op a b c) = a := by
  refine BitVec.eq_of_toNat_eq ?_
  rw [fieldA_toNat, packFields_toNat]
  omega

@[simp] theorem fieldB_packFields (op a b c : Nibble) : fieldB (packFields op a b c) = b := by
  refine BitVec.eq_of_toNat_eq ?_
  rw [fieldB_toNat, packFields_toNat]
  omega

@[simp] theorem fieldC_packFields (op a b c : Nibble) : fieldC (packFields op a b c) = c := by
  refine BitVec.eq_of_toNat_eq ?_
  rw [fieldC_toNat, packFields_toNat]
  omega

/-- A word is its four fields (30_encoding.md R61). -/
theorem packFields_fields (w : Word) : packFields (fieldOp w) (fieldA w) (fieldB w) (fieldC w) = w := by
  refine BitVec.eq_of_toNat_eq ?_
  rw [packFields_toNat, fieldOp_toNat, fieldA_toNat, fieldB_toNat, fieldC_toNat]
  omega

theorem packFields_and (op a b c op' a' b' c' : Nibble) :
    packFields op a b c &&& packFields op' a' b' c' = packFields (op &&& op') (a &&& a') (b &&& b') (c &&& c') := by
  have hop : (op ++ a) &&& (op' ++ a') = (op &&& op') ++ (a &&& a') := BitVec.and_append
  have hopa : (op ++ a ++ b) &&& (op' ++ a' ++ b') = (op &&& op') ++ (a &&& a') ++ (b &&& b') := by
    rw [← hop]
    exact BitVec.and_append
  rw [packFields, packFields, packFields, ← hopa]
  exact BitVec.and_append

/-! ### The opcode field -/

@[simp] theorem opcodeOf_code (o : Opcode) : opcodeOf o.code = o := by cases o <;> rfl

@[simp] theorem code_opcodeOf (f : Nibble) : (opcodeOf f).code = f := by
  revert f
  decide

/-- The opcode field is used by every instruction (30_encoding.md R71). -/
theorem fieldOp_and_usedBits (w : Word) (o : Opcode) : fieldOp (w &&& o.usedBits) = fieldOp w := by
  have hall : fieldOp o.usedBits = BitVec.allOnes 4 := by cases o <;> rfl
  rw [fieldOp, BitVec.extractLsb'_and, ← fieldOp, ← fieldOp, hall, BitVec.and_allOnes]

/-! ### The decoder over fields -/

/-- The variant of a row of the table, from the three operand fields (30_encoding.md R62 to R68). -/
def decodeFields (o : Opcode) (a b c : Nibble) : Instr :=
  match o with
  | .endFrame => .endFrame
  | .hby => .hby (a ++ b) (regOf c)
  | .lby => .lby (a ++ b) (regOf c)
  | .lod => .lod (regOf a) (regOf c)
  | .str => .str (regOf a) (regOf b)
  | .add => .add (regOf a) (regOf b) (regOf c)
  | .sub => .sub (regOf a) (regOf b) (regOf c)
  | .adi => .adi (regOf a) b (regOf c)
  | .sbi => .sbi (regOf a) b (regOf c)
  | .and => .and (regOf a) (regOf b) (regOf c)
  | .orr => .orr (regOf a) (regOf b) (regOf c)
  | .xor => .xor (regOf a) (regOf b) (regOf c)
  | .not => .not (regOf a) (regOf c)
  | .shf => .shf (regOf a) (shiftDirOf b) (shiftAmountOf b) (regOf c)
  | .brv => .brv (regOf a) (regOf b) (c.getLsbD 2) (c.getLsbD 1) (c.getLsbD 0)
  | .brf => .brf (regOf b) (c.getLsbD 1) (c.getLsbD 0)

theorem decode_eq_decodeFields (w : Word) :
    decode w = decodeFields (opcodeOf (fieldOp w)) (fieldA w) (fieldB w) (fieldC w) := by
  unfold decode decodeFields
  cases opcodeOf (fieldOp w) <;> rfl

theorem decode_packFields (o : Opcode) (a b c : Nibble) :
    decode (packFields o.code a b c) = decodeFields o a b c := by
  rw [decode_eq_decodeFields, fieldOp_packFields, opcodeOf_code, fieldA_packFields, fieldB_packFields,
    fieldC_packFields]

theorem opcode_decodeFields (o : Opcode) (a b c : Nibble) : (decodeFields o a b c).opcode = o := by
  cases o <;> rfl

theorem opcode_decode (w : Word) : (decode w).opcode = opcodeOf (fieldOp w) := by
  rw [decode_eq_decodeFields, opcode_decodeFields]

/-! ### The operand fields, read and written -/

@[simp] theorem regOf_regField (r : Reg) : regOf (regField r) = r := rfl

@[simp] theorem regField_regOf (f : Nibble) : regField (regOf f) = f := rfl

@[simp] theorem immFieldHigh_append_immFieldLow (imm8 : Byte) : immFieldHigh imm8 ++ immFieldLow imm8 = imm8 := by
  revert imm8
  decide

@[simp] theorem immFieldHigh_append (a b : Nibble) : immFieldHigh (a ++ b) = a := by
  revert a b
  decide

@[simp] theorem immFieldLow_append (a b : Nibble) : immFieldLow (a ++ b) = b := by
  revert a b
  decide

@[simp] theorem shiftDirOf_shiftField (dir : ShiftDir) (amount : Nat) : shiftDirOf (shiftField dir amount) = dir := by
  have hleft : ∀ x : BitVec 3, shiftDirOf (0#1 ++ x) = .left := by decide
  have hright : ∀ x : BitVec 3, shiftDirOf (1#1 ++ x) = .right := by decide
  cases dir with
  | left => exact hleft _
  | right => exact hright _

/-- The three amount bits hold every amount from 1 to 8, and no other (30_encoding.md R66). -/
theorem shiftAmountOf_shiftField (dir : ShiftDir) {amount : Nat} (h : ShiftDir.amountOk amount = true) :
    shiftAmountOf (shiftField dir amount) = amount := by
  obtain ⟨hlow, hhigh⟩ : 1 ≤ amount ∧ amount ≤ 8 := by simpa [ShiftDir.amountOk] using h
  cases dir <;> interval_cases amount <;> rfl

theorem amountOk_shiftAmountOf (b : Nibble) : ShiftDir.amountOk (shiftAmountOf b) = true := by
  revert b
  decide

@[simp] theorem shiftField_shiftDirOf_shiftAmountOf (b : Nibble) :
    shiftField (shiftDirOf b) (shiftAmountOf b) = b := by
  revert b
  decide

theorem brvField_getLsbD (n z p : Bool) :
    (brvField n z p).getLsbD 2 = n ∧ (brvField n z p).getLsbD 1 = z ∧ (brvField n z p).getLsbD 0 = p := by
  revert n z p
  decide

theorem brfField_getLsbD (v cy : Bool) : (brfField v cy).getLsbD 1 = v ∧ (brfField v cy).getLsbD 0 = cy := by
  revert v cy
  decide

/-- BRV uses the low three bits of field c (30_encoding.md R67). -/
theorem brvField_eq_and (c : Nibble) : brvField (c.getLsbD 2) (c.getLsbD 1) (c.getLsbD 0) = c &&& 0x7#4 := by
  revert c
  decide

/-- BRF uses the low two bits of field c (30_encoding.md R68). -/
theorem brfField_eq_and (c : Nibble) : brfField (c.getLsbD 1) (c.getLsbD 0) = c &&& 0x3#4 := by
  revert c
  decide

/-! ### The round trips -/

theorem wellFormed_decodeFields (o : Opcode) (a b c : Nibble) : (decodeFields o a b c).wellFormed = true := by
  cases o with
  | shf => exact amountOk_shiftAmountOf b
  | endFrame | hby | lby | lod | str | add | sub | adi | sbi | and | orr | xor | not | brv | brf => rfl

/-- Settles O4: the amount of SHF is the one field that is checked, and three bits plus one lie between 1 and 8. -/
theorem everyWordDecodesWellFormed : Obligations.EveryWordDecodesWellFormed := by
  unfold Obligations.EveryWordDecodesWellFormed
  intro w
  rw [decode_eq_decodeFields]
  exact wellFormed_decodeFields _ _ _ _

/-- Settles O1, variant by variant: the encoder packs the opcode of the row, and each operand is read back from the
field it was written to. -/
theorem decodeEncodeRoundTrip : Obligations.DecodeEncodeRoundTrip := by
  unfold Obligations.DecodeEncodeRoundTrip
  intro i hwf
  cases i with
  | endFrame | lod | str | add | sub | adi | sbi | and | orr | xor | not =>
    rw [encode, decode_packFields]; rfl
  | hby imm8 d | lby imm8 d =>
    rw [encode, decode_packFields, decodeFields, immFieldHigh_append_immFieldLow, regOf_regField]
  | shf a dir amount d =>
    rw [encode, decode_packFields, decodeFields, shiftDirOf_shiftField, shiftAmountOf_shiftField dir hwf,
      regOf_regField, regOf_regField]
  | brv a b n z p =>
    obtain ⟨hn, hz, hp⟩ := brvField_getLsbD n z p
    rw [encode, decode_packFields, decodeFields, hn, hz, hp, regOf_regField, regOf_regField]
  | brf b v cy =>
    obtain ⟨hv, hcy⟩ := brfField_getLsbD v cy
    rw [encode, decode_packFields, decodeFields, hv, hcy, regOf_regField]

/-- The used bits field by field: the opcode is kept whole (30_encoding.md R71). -/
theorem packFields_and_usedBits {o : Opcode} {a b c a' b' c' ma mb mc : Nibble} (ha : a &&& ma = a')
    (hb : b &&& mb = b') (hc : c &&& mc = c') (hused : o.usedBits = packFields (BitVec.allOnes 4) ma mb mc) :
    packFields o.code a b c &&& o.usedBits = packFields o.code a' b' c' := by
  rw [hused, packFields_and, BitVec.and_allOnes, ha, hb, hc]

/-- Encoding a row's variant again clears what the row does not use of its operand fields (30_encoding.md R71, R74). -/
theorem encode_decodeFields (o : Opcode) (a b c : Nibble) :
    encode (decodeFields o a b c) = packFields o.code a b c &&& o.usedBits := by
  have keep (f : Nibble) : f &&& BitVec.allOnes 4 = f := BitVec.and_allOnes
  have drop (f : Nibble) : f &&& 0#4 = 0 := BitVec.and_zero
  symm
  cases o with
  | endFrame => exact packFields_and_usedBits (drop a) (drop b) (drop c) rfl
  | lod | not => exact packFields_and_usedBits (keep a) (drop b) (keep c) rfl
  | str => exact packFields_and_usedBits (keep a) (keep b) (drop c) rfl
  | add | sub | adi | sbi | and | orr | xor => exact packFields_and_usedBits (keep a) (keep b) (keep c) rfl
  | hby | lby =>
    rw [decodeFields, encode, immFieldHigh_append, immFieldLow_append]
    exact packFields_and_usedBits (keep a) (keep b) (keep c) rfl
  | shf =>
    rw [decodeFields, encode, shiftField_shiftDirOf_shiftAmountOf]
    exact packFields_and_usedBits (keep a) (keep b) (keep c) rfl
  | brv => exact packFields_and_usedBits (keep a) (keep b) (brvField_eq_and c).symm rfl
  | brf => exact packFields_and_usedBits (drop a) (keep b) (brfField_eq_and c).symm rfl

/-- Settles O2: the opcode field of a word names its row, and the row's variant keeps the bits it uses. -/
theorem encodeDecodeClearsUnusedBits : Obligations.EncodeDecodeClearsUnusedBits := by
  unfold Obligations.EncodeDecodeClearsUnusedBits
  intro w
  rw [decode_eq_decodeFields, encode_decodeFields, code_opcodeOf, packFields_fields]

/-- Settles O3: the decoding determines the opcode and the used bits by encoding it again, and the used bits determine
the decoding by decoding their word. -/
theorem unusedFieldsDoNotMatter : Obligations.UnusedFieldsDoNotMatter := by
  unfold Obligations.UnusedFieldsDoNotMatter
  intro w w'
  constructor
  · intro h
    have hop : opcodeOf (fieldOp w) = opcodeOf (fieldOp w') := by rw [← opcode_decode, ← opcode_decode, h]
    calc w &&& (opcodeOf (fieldOp w)).usedBits
        = encode (decode w) := (encodeDecodeClearsUnusedBits w).symm
      _ = encode (decode w') := by rw [h]
      _ = w' &&& (opcodeOf (fieldOp w)).usedBits := by rw [hop, encodeDecodeClearsUnusedBits w']
  · intro h
    have hop : fieldOp w = fieldOp w' := by
      rw [← fieldOp_and_usedBits w, h, fieldOp_and_usedBits]
    have henc : encode (decode w) = encode (decode w') := by
      rw [encodeDecodeClearsUnusedBits, encodeDecodeClearsUnusedBits, ← hop, h]
    calc decode w = decode (encode (decode w)) := (decodeEncodeRoundTrip _ (everyWordDecodesWellFormed w)).symm
      _ = decode (encode (decode w')) := by rw [henc]
      _ = decode w' := decodeEncodeRoundTrip _ (everyWordDecodesWellFormed w')

/-! ### The table -/

/-- The word of four fields, from their numbers (30_encoding.md R61). -/
theorem ofNat_eq_packFields {op a b c : Nat} (ha : a < 16) (hb : b < 16) (hc : c < 16) :
    BitVec.ofNat 16 (op * 4096 + a * 256 + b * 16 + c) =
      packFields (BitVec.ofNat 4 op) (BitVec.ofNat 4 a) (BitVec.ofNat 4 b) (BitVec.ofNat 4 c) := by
  refine BitVec.eq_of_toNat_eq ?_
  simp only [packFields_toNat, BitVec.toNat_ofNat]
  omega

theorem decode_ofNat {a b c : Nat} (ha : a < 16) (hb : b < 16) (hc : c < 16) (o : Opcode) :
    decode (BitVec.ofNat 16 (o.code.toNat * 4096 + a * 256 + b * 16 + c)) =
      decodeFields o (BitVec.ofNat 4 a) (BitVec.ofNat 4 b) (BitVec.ofNat 4 c) := by
  rw [ofNat_eq_packFields ha hb hc, BitVec.ofNat_toNat, BitVec.setWidth_eq, decode_packFields]

theorem imm8_ofNat {a b : Nat} (hb : b < 16) :
    (BitVec.ofNat 4 a ++ BitVec.ofNat 4 b : Byte) = BitVec.ofNat 8 (16 * a + b) := by
  refine BitVec.eq_of_toNat_eq ?_
  simp only [toNat_append_eq, BitVec.toNat_ofNat]
  omega

theorem shiftDirOf_ofNat : ∀ b < 16, shiftDirOf (BitVec.ofNat 4 b) = if 8 ≤ b then .right else .left := by
  decide

theorem shiftAmountOf_ofNat : ∀ b < 16, shiftAmountOf (BitVec.ofNat 4 b) = b % 8 + 1 := by
  decide

theorem getLsbD_ofNat (c k : Nat) (hk : k < 4) : (BitVec.ofNat 4 c).getLsbD k = decide (c / 2 ^ k % 2 = 1) := by
  rw [BitVec.getLsbD_ofNat, decide_eq_true hk, Bool.true_and, Nat.testBit_eq_decide_div_mod_eq]

/-- Settles O5: the word of each row is the packing of its opcode and its three fields, and each operand is read from
its field's number. -/
theorem decodesEveryRowOfTheTable : Obligations.DecodesEveryRowOfTheTable := by
  unfold Obligations.DecodesEveryRowOfTheTable
  intro a b c ha hb hc
  have hrow := decode_ofNat ha hb hc
  have himm := imm8_ofNat (a := a) hb
  have hbit (k : Nat) (hk : k < 4) := getLsbD_ofNat c k hk
  refine ⟨hrow .endFrame, ?hby, ?lby, hrow .lod, hrow .str, hrow .add, hrow .sub, hrow .adi, hrow .sbi, hrow .and,
    hrow .orr, hrow .xor, hrow .not, ?shf, ?brv, ?brf⟩
  case hby => exact (hrow .hby).trans (congrArg (Instr.hby · _) himm)
  case lby => exact (hrow .lby).trans (congrArg (Instr.lby · _) himm)
  case shf => rw [← shiftDirOf_ofNat b hb, ← shiftAmountOf_ofNat b hb]; exact hrow .shf
  case brv =>
    refine (hrow .brv).trans ?_
    rw [decodeFields, hbit 2 (by decide), hbit 1 (by decide), hbit 0 (by decide)]
    simp only [Nat.reducePow, Nat.div_one]
    rfl
  case brf =>
    refine (hrow .brf).trans ?_
    rw [decodeFields, hbit 1 (by decide), hbit 0 (by decide)]
    simp only [Nat.reducePow, Nat.div_one]
    rfl

/-- Settles O6: seven fixed words. -/
theorem sampleWordsDecode : Obligations.SampleWordsDecode := by
  unfold Obligations.SampleWordsDecode
  decide

end Sys2Proof
end

section
/-! Proofs of the statements of 40_engine.md section 1 and 60_exceptions.md: the step and its reply, and which faults a
step can raise. -/

namespace Sys2Proof.Machine

/-! ### The step -/

/-- Without a recorded fault the step is the fetched instruction's execution (40_engine.md R75). -/
theorem step_of_fault_none {s : State} (h : s.fault = none) : step s = exec s.fetched s := by
  rw [step, h]

/-- With a recorded fault the machine stops (60_exceptions.md R121). -/
theorem step_of_fault_some {s : State} {r : FaultRecord} (h : s.fault = some r) :
    step s = .fault (.instanceFaulted r) := by
  rw [step, h]

theorem stepCommand_of_step {s t : State} (h : step s = .next t) : stepCommand s = .next (stepReply s t, t) := by
  rw [stepCommand, h]

theorem stepReply_of_fault_none (s : State) {t : State} (h : t.fault = none) :
    stepReply s t = .halted (halts s.fetched) := by
  rw [stepReply, h]

theorem stepReply_of_fault_some (s : State) {t : State} {r : FaultRecord} (h : t.fault = some r) :
    stepReply s t = .raised r := by
  rw [stepReply, h]

theorem halts_eq_decide (i : Instr) : halts i = decide (i = .endFrame) := by
  cases i <;> simp [halts]

/-- An instruction with one data access answers a next state whatever the access says (60_exceptions.md R119). -/
theorem afterAccess_total {α : Type} (access : Except FaultRecord α) (s : State) (k : α → State) :
    ∃ t, afterAccess access s k = .next t := by
  cases access with
  | ok v => exact ⟨_, rfl⟩
  | error r => exact ⟨_, rfl⟩

/-- Every instruction has a meaning (40_engine.md R77). -/
theorem exec_total (i : Instr) (s : State) : ∃ t, exec i s = .next t := by
  cases i with
  | lod | str => exact afterAccess_total _ _ _
  | endFrame | hby | lby | add | sub | adi | sbi | and | orr | xor | not | shf | brv | brf => exact ⟨_, rfl⟩

theorem step_total {s : State} (h : s.fault = none) : ∃ t, step s = .next t := by
  rw [step_of_fault_none h]
  exact exec_total s.fetched s

/-- Settles O7: the fetched instruction is the decoding of the program word at the pc. -/
theorem stepRunsTheDecodedInstruction : Obligations.StepRunsTheDecodedInstruction := by
  unfold Obligations.StepRunsTheDecodedInstruction
  intro s i hf hi
  rw [step_of_fault_none hf, ← hi]
  rfl

/-- Settles O8: the step answers a next state, and the reply reads the record of that state. -/
theorem stepReportsHaltedExactlyForEnd : Obligations.StepReportsHaltedExactlyForEnd := by
  unfold Obligations.StepReportsHaltedExactlyForEnd
  intro s hf
  obtain ⟨t, ht⟩ := step_total hf
  refine ⟨t, ht, ?_⟩
  rw [stepCommand_of_step ht]
  obtain ⟨r, hr, hreply⟩ | ⟨hnone, hreply⟩ := stepReply_cases s t
  · exact .inl ⟨r, hr, by rw [hreply]⟩
  · refine .inr ⟨hnone, ?_⟩
    rw [hreply, halts_eq_decide]
    rfl

/-- Settles O9: each command of a faulted machine reads the record before anything else. -/
theorem faultedInstanceAcceptsNoStepOrRun : Obligations.FaultedInstanceAcceptsNoStepOrRun := by
  unfold Obligations.FaultedInstanceAcceptsNoStepOrRun
  intro s r n hf
  have hstep := step_of_fault_some hf
  have hcommand : stepCommand s = .fault (.instanceFaulted r) := by rw [stepCommand, hstep]
  have hrun : runFrame n s = .fault (.instanceFaulted r) := by rw [runFrame, hf]
  refine ⟨hstep, hcommand, hrun, ?_, ?_⟩
  · rw [perform, performStep, hcommand]
  · rw [perform, performRun, hrun]

/-- Settles O10: END answers its own state, and a word with opcode 0 decodes to END. -/
theorem endChangesNothing : Obligations.EndChangesNothing := by
  unfold Obligations.EndChangesNothing
  intro s
  refine ⟨rfl, fun hf hop => ?_⟩
  have hfetched : s.fetched = .endFrame := by
    change decode (s.word .prog s.pc.toNat) = .endFrame
    rw [decode_eq_decodeFields, hop]
    rfl
  have hstep : step s = .next s := by rw [step_of_fault_none hf, hfetched]; rfl
  rw [stepCommand_of_step hstep, stepReply_of_fault_none s hf, hfetched]
  rfl

/-! ### The faults -/

@[simp] theorem State.raiseFault_word (s : State) (r : FaultRecord) (k : Store) (i : Nat) :
    (s.raiseFault r).word k i = s.word k i := by
  cases k <;> rfl

/-- The record is all that raising a fault changes (60_exceptions.md R119). -/
theorem onlyFault_raiseFault (s : State) (r : FaultRecord) : OnlyFault r s (s.raiseFault r) :=
  ⟨rfl, rfl, fun _ => rfl, ⟨rfl, rfl⟩, s.raiseFault_word r, rfl⟩

/-- The instruction raises the fault r: one of the three rows of 60_exceptions.md R115. -/
def RaisesFault (i : Instr) (s : State) (r : FaultRecord) : Prop :=
  (∃ a d, i = .lod a d ∧ 0xFC00 ≤ (s.reg a).toNat ∧ r = .readOutOfBounds (s.reg a)) ∨
  (∃ a b, i = .str a b ∧ (s.reg a).toNat < 0x8000 ∧ r = .writeToRom (s.reg a)) ∨
  (∃ a b, i = .str a b ∧ 0xFC00 ≤ (s.reg a).toNat ∧ r = .writeOutOfBounds (s.reg a))

/-- An instruction leaves the record as it was, or raises one of the three faults and does nothing else
(60_exceptions.md R115, R119). -/
theorem exec_next_fault_cases {i : Instr} {s t : State} (h : exec i s = .next t) :
    t.fault = s.fault ∨ ∃ r, RaisesFault i s r ∧ t = s.raiseFault r := by
  cases i with
  | lod a d =>
    obtain ⟨v, -, rfl⟩ | ⟨r, herr, rfl⟩ := afterAccess_next_cases h
    · exact .inl rfl
    · obtain ⟨hlim, rfl⟩ := memRead_error_cases herr
      exact .inr ⟨_, .inl ⟨a, d, rfl, hlim, rfl⟩, rfl⟩
  | str a b =>
    obtain ⟨u, hu, rfl⟩ | ⟨r, herr, rfl⟩ := afterAccess_next_cases h
    · obtain ⟨-, -, -, -, hfault⟩ := memWrite_ok_frame hu
      exact .inl hfault
    · obtain ⟨hrom, rfl⟩ | ⟨hlim, rfl⟩ := memWrite_error_cases herr
      · exact .inr ⟨_, .inr (.inl ⟨a, b, rfl, hrom, rfl⟩), rfl⟩
      · exact .inr ⟨_, .inr (.inr ⟨a, b, rfl, hlim, rfl⟩), rfl⟩
  | brv | brf => cases h; rw [branchTo_eq_setPc]; exact .inl rfl
  | endFrame | hby | lby | add | sub | adi | sbi | and | orr | xor | not | shf => cases h; exact .inl rfl

/-- A recorded fault after a step was raised by it. -/
theorem step_next_fault_some {s t : State} {r : FaultRecord} (h : step s = .next t) (hr : t.fault = some r) :
    RaisesFault s.fetched s r ∧ t = s.raiseFault r := by
  obtain ⟨hnone, hexec⟩ := step_next_inv h
  obtain hkeep | ⟨r', hraises, rfl⟩ := exec_next_fault_cases hexec
  · rw [hkeep, hnone] at hr; cases hr
  · cases hr; exact ⟨hraises, rfl⟩

/-- Settles O29: a step that records a fault is the raising of that fault. -/
theorem faultsArePrecise : Obligations.FaultsArePrecise := by
  unfold Obligations.FaultsArePrecise
  intro s t r h hr
  obtain ⟨-, rfl⟩ := step_next_fault_some h hr
  exact onlyFault_raiseFault s r

/-- Settles O30: the rows of `RaisesFault` are the three faults. -/
theorem onlyLodAndStrRaiseFaults : Obligations.OnlyLodAndStrRaiseFaults := by
  unfold Obligations.OnlyLodAndStrRaiseFaults
  intro s t r h hr
  exact (step_next_fault_some h hr).1

/-- An access its store takes raises no fault (60_exceptions.md R115). -/
theorem not_raisesFault_of_accessOk {i : Instr} {s : State} (h : accessOk i s = true) (r : FaultRecord) :
    ¬ RaisesFault i s r := by
  rintro (⟨a, d, rfl, hlim, -⟩ | ⟨a, b, rfl, hrom, -⟩ | ⟨a, b, rfl, hlim, -⟩) <;>
    simp [accessOk, Config.ramBase, Config.ioLimit] at h <;> omega

theorem step_next_fault_none_of_accessOk {s t : State} (h : step s = .next t) (hok : accessOk s.fetched s = true) :
    t.fault = none := by
  cases hr : t.fault with
  | none => rfl
  | some r => exact absurd (step_next_fault_some h hr).1 (not_raisesFault_of_accessOk hok r)

/-- Settles O31, by induction on the number of steps with the start state general: the first access is taken, so the
first step records no fault, and the rest of the run starts one state later. -/
theorem mappedAccessesNeverFault : Obligations.MappedAccessesNeverFault := by
  unfold Obligations.MappedAccessesNeverFault
  intro k
  induction k with
  | zero => exact fun s hf _ => ⟨s, rfl, hf⟩
  | succ k ih =>
    intro s hf hok
    obtain ⟨t, hstep⟩ := step_total hf
    have ht : t.fault = none := step_next_fault_none_of_accessOk hstep (hok 0 s k.succ_pos rfl)
    rw [core_run_succ_of_next hstep]
    refine ih t ht fun j u hj hu => hok (j + 1) u (Nat.succ_lt_succ hj) ?_
    rwa [core_run_succ_of_next hstep]

end Sys2Proof.Machine
end

section
/-! Proofs of the statements of 10_state.md: which instruction writes which flag, register and pc (R22, R25, R28), and
what no step changes (R32, R35). -/

namespace Sys2Proof.Machine

/-! ### The flags -/

/-- Both flags survive every instruction that 10_state.md R28 does not name as their writer. -/
theorem exec_next_flags {i : Instr} {s t : State} (h : exec i s = .next t) :
    (writesCarry i = true ∨ t.carry = s.carry) ∧ (writesBothFlags i = true ∨ t.overflow = s.overflow) := by
  cases i with
  | add | sub | adi | sbi => exact ⟨.inl rfl, .inl rfl⟩
  | shf => cases h; exact ⟨.inl rfl, .inr rfl⟩
  | lod a d => obtain ⟨v, -, rfl⟩ | ⟨r, -, rfl⟩ := afterAccess_next_cases h <;> exact ⟨.inr rfl, .inr rfl⟩
  | str a b =>
    obtain ⟨u, hu, rfl⟩ | ⟨r, -, rfl⟩ := afterAccess_next_cases h
    · obtain ⟨-, -, ⟨hcarry, hoverflow⟩, -⟩ := memWrite_ok_frame hu
      exact ⟨.inr hcarry, .inr hoverflow⟩
    · exact ⟨.inr rfl, .inr rfl⟩
  | brv | brf => cases h; rw [branchTo_eq_setPc]; exact ⟨.inr rfl, .inr rfl⟩
  | endFrame | hby | lby | and | orr | xor | not => cases h; exact ⟨.inr rfl, .inr rfl⟩

/-- Settles O32: a flag that changed belongs to an instruction that writes it. -/
theorem onlyArithmeticAndShiftWriteFlags : Obligations.OnlyArithmeticAndShiftWriteFlags := by
  unfold Obligations.OnlyArithmeticAndShiftWriteFlags
  intro s t h
  obtain ⟨hcarry, hoverflow⟩ := exec_next_flags (step_next_inv h).2
  exact ⟨hcarry.resolve_right, hoverflow.resolve_right⟩

/-! ### The registers -/

/-- A register that is not the destination keeps its value (10_state.md R22). -/
theorem exec_next_reg {i : Instr} {s t : State} {r : Reg} (h : exec i s = .next t) (hd : destReg i ≠ some r) :
    t.reg r = s.reg r := by
  have hne {d : Reg} (h : some d ≠ some r) : r ≠ d := fun heq => h (heq ▸ rfl)
  cases i with
  | endFrame => cases h; rfl
  | lod a d =>
    obtain ⟨v, -, rfl⟩ | ⟨f, -, rfl⟩ := afterAccess_next_cases h
    · exact s.reg_setReg_other d r v (hne hd)
    · rfl
  | str a b =>
    obtain ⟨u, hu, rfl⟩ | ⟨f, -, rfl⟩ := afterAccess_next_cases h
    · obtain ⟨-, hregs, -⟩ := memWrite_ok_frame hu
      exact hregs r
    · rfl
  | brv | brf => cases h; rw [branchTo_eq_setPc]; rfl
  | hby | lby | and | orr | xor | not => cases h; exact s.reg_setReg_other _ r _ (hne hd)
  | add | sub | adi | sbi => cases h; exact basicAdd_reg_other _ _ _ _ r s (hne hd)
  | shf => cases h; exact (s.setCarry _).reg_setReg_other _ r _ (hne hd)

/-- Settles O33: a register that changed is the destination. -/
theorem onlyTheDestinationRegisterChanges : Obligations.OnlyTheDestinationRegisterChanges := by
  unfold Obligations.OnlyTheDestinationRegisterChanges
  intro s t r h hne
  exact by_contra fun hd => hne (exec_next_reg (step_next_inv h).2 hd)

/-! ### The pc -/

/-- A branch goes to its target or to the next address (45_branch.md R112). -/
theorem branchTo_pc_cases (taken : Bool) (target : Word) (s : State) :
    (branchTo taken target s).pc = target ∨ (branchTo taken target s).pc = s.pc + 1#16 := by
  cases taken
  · exact .inr rfl
  · exact .inl rfl

/-- Settles O34: the advance is the rule for the instructions that advance, a branch has two destinations, END answers
its own state, and a raised fault is precise. -/
theorem pcChangesInFourWays : Obligations.PcChangesInFourWays := by
  unfold Obligations.PcChangesInFourWays
  intro s t h
  obtain ⟨-, hexec⟩ := step_next_inv h
  refine ⟨fun ha hf => step_pc_of_advances h ha hf, fun a b n z p hi => ?brv, fun b v cy hi => ?brf, fun hstay => ?stay⟩
  case brv | brf => rw [hi] at hexec; cases hexec; exact branchTo_pc_cases _ _ s
  case stay =>
    obtain hi | hf := hstay
    · rw [hi] at hexec; cases hexec; rfl
    · obtain ⟨r, hr⟩ := Option.ne_none_iff_exists'.mp hf
      obtain ⟨-, rfl⟩ := step_next_fault_some h hr
      rfl

/-! ### What no step changes -/

/-- Settles O35: the frame of a step, read word by word. -/
theorem stepsKeepProgramRomSelectorAndInactiveBuffer : Obligations.StepsKeepProgramRomSelectorAndInactiveBuffer := by
  unfold Obligations.StepsKeepProgramRomSelectorAndInactiveBuffer
  intro s t h
  obtain ⟨hprog, hrom, hactive, hinactive⟩ := step_next_stepFrame h
  exact ⟨hactive, fun i => ⟨congrArg (Memory.readWord · i) hprog, congrArg (Memory.readWord · i) hrom,
    congrArg (Memory.readWord · i) hinactive⟩⟩

end Sys2Proof.Machine
end

section
/-! Proofs of the statements of 41_halt_and_byte_load.md: HBY and LBY (R93, R94). -/

namespace Sys2Proof.Machine

/-! ### The two halves of a word -/

theorem halves_append (v : Word) : v.extractLsb' 8 8 ++ v.extractLsb' 0 8 = v := by
  refine BitVec.eq_of_toNat_eq ?_
  simp only [toNat_append_eq, BitVec.extractLsb'_toNat, Nat.shiftRight_eq_div_pow]
  omega

theorem halves_toNat (v : Word) :
    (v.extractLsb' 8 8).toNat = v.toNat / 256 ∧ (v.extractLsb' 0 8).toNat = v.toNat % 256 := by
  simp only [BitVec.extractLsb'_toNat, Nat.shiftRight_eq_div_pow]
  omega

theorem setWidth_byte_eq_append (imm8 : Byte) : imm8.setWidth 16 = 0#8 ++ imm8 := by
  refine BitVec.eq_of_toNat_eq ?_
  have himm := imm8.isLt
  rw [toNat_append_eq, BitVec.toNat_setWidth, BitVec.toNat_ofNat]
  omega

theorem shiftLeft_setWidth_byte_eq_append (imm8 : Byte) : imm8.setWidth 16 <<< 8 = imm8 ++ 0#8 := by
  refine BitVec.eq_of_toNat_eq ?_
  have himm := imm8.isLt
  rw [toNat_append_eq, BitVec.toNat_shiftLeft, BitVec.toNat_setWidth, Nat.shiftLeft_eq, BitVec.toNat_ofNat]
  omega

/-- HBY replaces the high half and keeps the low one (41_halt_and_byte_load.md R93). -/
theorem withHighByte_append (high low imm8 : Byte) : withHighByte (high ++ low) imm8 = imm8 ++ low := by
  have hkeep : (high ++ low) &&& (0#8 ++ BitVec.allOnes 8) = 0#8 ++ low := by
    rw [BitVec.and_append, BitVec.and_zero, BitVec.and_allOnes]
  have hjoin : (imm8 ++ 0#8) ||| (0#8 ++ low) = imm8 ++ low := by
    rw [BitVec.or_append, BitVec.or_zero, BitVec.zero_or]
  calc withHighByte (high ++ low) imm8
      = (imm8.setWidth 16 <<< 8) ||| ((high ++ low) &&& (0#8 ++ BitVec.allOnes 8)) := rfl
    _ = imm8 ++ low := by rw [shiftLeft_setWidth_byte_eq_append, hkeep, hjoin]

/-- LBY replaces the low half and keeps the high one (41_halt_and_byte_load.md R94). -/
theorem withLowByte_append (high low imm8 : Byte) : withLowByte (high ++ low) imm8 = high ++ imm8 := by
  have hkeep : (high ++ low) &&& (BitVec.allOnes 8 ++ 0#8) = high ++ 0#8 := by
    rw [BitVec.and_append, BitVec.and_zero, BitVec.and_allOnes]
  have hjoin : (high ++ 0#8) ||| (0#8 ++ imm8) = high ++ imm8 := by
    rw [BitVec.or_append, BitVec.or_zero, BitVec.zero_or]
  calc withLowByte (high ++ low) imm8
      = ((high ++ low) &&& (BitVec.allOnes 8 ++ 0#8)) ||| imm8.setWidth 16 := rfl
    _ = high ++ imm8 := by rw [setWidth_byte_eq_append, hkeep, hjoin]

theorem withHighByte_eq (v : Word) (imm8 : Byte) : withHighByte v imm8 = imm8 ++ v.extractLsb' 0 8 := by
  rw [← withHighByte_append, halves_append]

theorem withLowByte_eq (v : Word) (imm8 : Byte) : withLowByte v imm8 = v.extractLsb' 8 8 ++ imm8 := by
  rw [← withLowByte_append, halves_append]

theorem withHighByte_toNat (v : Word) (imm8 : Byte) :
    (withHighByte v imm8).toNat = imm8.toNat * 256 + v.toNat % 256 := by
  obtain ⟨-, hlow⟩ := halves_toNat v
  rw [withHighByte_eq, toNat_append_eq, hlow]
  rfl

theorem withLowByte_toNat (v : Word) (imm8 : Byte) :
    (withLowByte v imm8).toNat = v.toNat / 256 * 256 + imm8.toNat := by
  obtain ⟨hhigh, -⟩ := halves_toNat v
  rw [withLowByte_eq, toNat_append_eq, hhigh]
  rfl

/-! ### The statements -/

theorem OnlyRegAndPc.trans {d : Reg} {s t u : State} (h : OnlyRegAndPc d s t) (h' : OnlyRegAndPc d t u) :
    OnlyRegAndPc d s u := by
  obtain ⟨hregs, ⟨hcarry, hoverflow⟩, hmem, hactive, hfault⟩ := h
  obtain ⟨hregs', ⟨hcarry', hoverflow'⟩, hmem', hactive', hfault'⟩ := h'
  exact ⟨fun r hr => (hregs' r hr).trans (hregs r hr), ⟨hcarry'.trans hcarry, hoverflow'.trans hoverflow⟩,
    fun k i => (hmem' k i).trans (hmem k i), hactive'.trans hactive, hfault'.trans hfault⟩

@[simp] theorem reg_setReg_advancePc (s : State) (d : Reg) (v : Word) : (s.setReg d v).advancePc.reg d = v :=
  s.reg_setReg_same d v

/-- Settles O11: HBY writes one register and advances the pc. -/
theorem hbyWritesTheHighByte : Obligations.HbyWritesTheHighByte := by
  unfold Obligations.HbyWritesTheHighByte
  intro imm8 d s
  refine ⟨_, rfl, ?_, rfl, onlyRegAndPc_setReg_advancePc d _ s⟩
  rw [reg_setReg_advancePc, withHighByte_toNat]

/-- Settles O12: LBY writes one register and advances the pc. -/
theorem lbyWritesTheLowByte : Obligations.LbyWritesTheLowByte := by
  unfold Obligations.LbyWritesTheLowByte
  intro imm8 d s
  refine ⟨_, rfl, ?_, rfl, onlyRegAndPc_setReg_advancePc d _ s⟩
  rw [reg_setReg_advancePc, withLowByte_toNat]

/-- Two register writes to the same register, each with its advance of the pc. -/
theorem two_setReg_advancePc (s : State) (d : Reg) (v v' : Word) :
    ((s.setReg d v).advancePc.setReg d v').advancePc.pc = s.pc + 2#16 ∧
      OnlyRegAndPc d s ((s.setReg d v).advancePc.setReg d v').advancePc :=
  ⟨BitVec.add_assoc s.pc 1#16 1#16, (onlyRegAndPc_setReg_advancePc d v s).trans (onlyRegAndPc_setReg_advancePc d v' _)⟩

/-- Settles O13: the second instruction keeps the half that the first one wrote. -/
theorem bytePairBuildsAnyConstant : Obligations.BytePairBuildsAnyConstant := by
  unfold Obligations.BytePairBuildsAnyConstant
  intro hi lo d s
  constructor
  · refine ⟨_, _, rfl, rfl, ?_, two_setReg_advancePc s d _ _⟩
    rw [reg_setReg_advancePc, reg_setReg_advancePc, withHighByte_eq, withLowByte_append]
  · refine ⟨_, _, rfl, rfl, ?_, two_setReg_advancePc s d _ _⟩
    rw [reg_setReg_advancePc, reg_setReg_advancePc, withLowByte_eq, withHighByte_append]

end Sys2Proof.Machine
end

section
/-! Proofs of the statements of 20_memory.md sections 1 and 5 and 42_load_store.md: the address decoder's ranges (R41,
R42), LOD and STR (R96, R97), and a read after a store (R55). -/

namespace Sys2Proof.Machine

/-! ### The address decoder loses nothing below 0xFC00 -/

/-- The four ranges of the data space (20_memory.md R40). -/
theorem route_cases (addr : Word) :
    (addr.toNat < 0x8000 ∧ route addr = .rom addr.toNat) ∨
    (0x8000 ≤ addr.toNat ∧ addr.toNat < 0xF800 ∧ route addr = .ram (addr.toNat - 0x8000)) ∨
    (0xF800 ≤ addr.toNat ∧ addr.toNat < 0xFC00 ∧ route addr = .io (addr.toNat - 0xF800)) ∨
    (0xFC00 ≤ addr.toNat ∧ route addr = .unmapped) := by
  by_cases hrom : addr.toNat < 0x8000
  · exact .inl ⟨hrom, route_rom hrom⟩
  by_cases hram : addr.toNat < 0xF800
  · exact .inr (.inl ⟨not_lt.mp hrom, hram, route_ram (not_lt.mp hrom) hram⟩)
  by_cases hio : addr.toNat < 0xFC00
  · exact .inr (.inr (.inl ⟨not_lt.mp hram, hio, route_io (not_lt.mp hram) hio⟩))
  · exact .inr (.inr (.inr ⟨not_lt.mp hio, route_unmapped (not_lt.mp hio)⟩))

/-- The first data address that a target stands for (20_memory.md R40). -/
def Target.address : Target → Nat
  | .rom k => k
  | .ram k => k + 0x8000
  | .io k => k + 0xF800
  | .unmapped => 0xFC00

/-- The target gives the address back, as far as the mapped ranges reach (20_memory.md R41). -/
theorem address_route (addr : Word) : (route addr).address = min addr.toNat 0xFC00 := by
  obtain ⟨hhi, hroute⟩ | ⟨hlo, hhi, hroute⟩ | ⟨hlo, hhi, hroute⟩ | ⟨hlo, hroute⟩ := route_cases addr <;>
    rw [hroute, Target.address] <;> omega

theorem eq_of_route_eq {addr addr' : Word} (hmapped : addr.toNat < 0xFC00) (h : route addr = route addr') :
    addr = addr' := by
  have haddress := congrArg Target.address h
  rw [address_route, address_route] at haddress
  exact BitVec.eq_of_toNat_eq (by omega)

/-- Settles O16: the decoder has a left inverse on the mapped addresses, and each range gives its offset. -/
theorem mappedAddressesReachDistinctWords : Obligations.MappedAddressesReachDistinctWords := by
  unfold Obligations.MappedAddressesReachDistinctWords
  refine ⟨fun addr addr' => eq_of_route_eq, fun addr => ?_⟩
  obtain ⟨hhi, hroute⟩ | ⟨hlo, hhi, hroute⟩ | ⟨hlo, hhi, hroute⟩ | ⟨hlo, hroute⟩ := route_cases addr <;> rw [hroute]
  case inl => exact ⟨hhi, hhi⟩
  case inr.inl | inr.inr.inl => exact ⟨by omega, hlo, hhi⟩
  case inr.inr.inr => exact hlo

/-! ### LOD and STR by the answer of their access -/

theorem exec_lod_of_ok {a d : Reg} {s : State} {v : Word} (h : memRead (s.effectiveAddress a) s = .ok v) :
    exec (.lod a d) s = .next (s.setReg d v).advancePc := by
  rw [exec, execLod, h]; rfl

theorem exec_lod_of_error {a d : Reg} {s : State} {r : FaultRecord}
    (h : memRead (s.effectiveAddress a) s = .error r) : exec (.lod a d) s = .next (s.raiseFault r) := by
  rw [exec, execLod, h]; rfl

theorem exec_str_of_ok {a b : Reg} {s t : State} (h : memWrite (s.effectiveAddress a) (s.reg b) s = .ok t) :
    exec (.str a b) s = .next t.advancePc := by
  rw [exec, execStr, h]; rfl

theorem exec_str_of_error {a b : Reg} {s : State} {r : FaultRecord}
    (h : memWrite (s.effectiveAddress a) (s.reg b) s = .error r) : exec (.str a b) s = .next (s.raiseFault r) := by
  rw [exec, execStr, h]; rfl

@[simp] theorem State.advancePc_word (s : State) (k : Store) (i : Nat) : s.advancePc.word k i = s.word k i := by
  cases k <;> rfl

/-- Advancing the pc after a one-word write changes no word. -/
theorem word_eq_and_sameMemoryBut_advancePc {s t : State} {k : Store} {i : Nat} {v : Word} (hword : t.word k i = v)
    (hrest : SameMemoryBut k i s t) : t.advancePc.word k i = v ∧ SameMemoryBut k i s t.advancePc :=
  ⟨(t.advancePc_word k i).trans hword, fun k' i' hne => (t.advancePc_word k' i').trans (hrest k' i' hne)⟩

/-- Settles O17: the read path answers the addressed word, and LOD writes it to one register. -/
theorem lodLoadsTheAddressedWord : Obligations.LodLoadsTheAddressedWord := by
  unfold Obligations.LodLoadsTheAddressedWord
  intro a d s hmapped
  have hread := memReadByRange (s.effectiveAddress a) s
  rw [if_pos hmapped, ← apply_ite Except.ok, ← apply_ite Except.ok] at hread
  exact ⟨_, exec_lod_of_ok hread, reg_setReg_advancePc s d _, rfl, onlyRegAndPc_setReg_advancePc d _ s⟩

/-- Settles O18: the read path turns the address away, and LOD raises that fault. -/
theorem lodOutOfBoundsRaises : Obligations.LodOutOfBoundsRaises := by
  unfold Obligations.LodOutOfBoundsRaises
  intro a d s hlim
  exact ⟨_, exec_lod_of_error (memRead_unmapped s hlim), onlyFault_raiseFault s _⟩

/-- Settles O19: the write path changes the one word it names, in the RAM or in the active buffer, and advancing the pc
changes no word. -/
theorem strStoresOneWord : Obligations.StrStoresOneWord := by
  unfold Obligations.StrStoresOneWord
  intro a b s hlow hmapped
  obtain ⟨-, hram, hio, -⟩ := memWriteByRange (s.effectiveAddress a) (s.reg b) s
  by_cases hrange : (s.effectiveAddress a).toNat < 0xF800
  · obtain ⟨t, hwrite, hword, hrest, hpc, hregs, hflags, hcontrol⟩ := hram hlow hrange
    exact ⟨_, exec_str_of_ok hwrite, congrArg (· + 1#16) hpc, hregs, hflags, hcontrol,
      fun _ => word_eq_and_sameMemoryBut_advancePc hword hrest, fun hge => absurd hrange (not_lt.mpr hge)⟩
  · obtain ⟨t, hwrite, hword, hrest, hpc, hregs, hflags, hcontrol⟩ := hio (not_lt.mp hrange) hmapped
    exact ⟨_, exec_str_of_ok hwrite, congrArg (· + 1#16) hpc, hregs, hflags, hcontrol,
      fun hlt => absurd hlt hrange, fun _ => word_eq_and_sameMemoryBut_advancePc hword hrest⟩

/-- Settles O20: the write path turns the address away, and STR raises that fault. -/
theorem strToRomOrOutOfBoundsRaises : Obligations.StrToRomOrOutOfBoundsRaises := by
  unfold Obligations.StrToRomOrOutOfBoundsRaises
  intro a b s
  exact ⟨fun hrom => ⟨_, exec_str_of_error (memWrite_rom (s.reg b) s hrom), onlyFault_raiseFault s _⟩,
    fun hlim => ⟨_, exec_str_of_error (memWrite_unmapped (s.reg b) s hlim), onlyFault_raiseFault s _⟩⟩

/-! ### A read after a store -/

/-- The read path after an accepted write: the written value at that address, the old answer at every other one, for no
other address reaches the same word (20_memory.md R42, R55). -/
theorem memRead_of_memWrite {addr v : Word} {s t : State} (h : memWrite addr v s = .ok t) (addr' : Word) :
    memRead addr' t = if addr' = addr then .ok v else memRead addr' s := by
  have hmapped : addr.toNat < 0xFC00 := by
    by_contra hlim
    rw [memWrite_unmapped v s (not_lt.mp hlim)] at h
    cases h
  have hother (hne : addr' ≠ addr) : route addr' ≠ route addr :=
    fun heq => hne (eq_of_route_eq hmapped heq.symm).symm
  obtain ⟨k, -, hroute, rfl⟩ | ⟨k, -, hroute, rfl⟩ := memWrite_ok_cases h
  case inl =>
    split_ifs with heq
    · rw [heq, memRead, hroute]; simp
    · unfold memRead
      cases hr : route addr' with
      | ram j =>
        have hjk : j ≠ k := fun hjk => hother heq (by rw [hr, hroute, hjk])
        simp [Memory.readWord_writeWord, hjk]
      | rom | io | unmapped => rfl
  case inr =>
    split_ifs with heq
    · rw [heq, memRead, hroute]; simp [State.buffer_writeBuffer]
    · unfold memRead
      cases hr : route addr' with
      | io j =>
        have hjk : j ≠ k := fun hjk => hother heq (by rw [hr, hroute, hjk])
        simp [State.buffer_writeBuffer, Memory.readWord_writeWord, hjk]
      | rom | ram | unmapped => simp

/-- Settles O21: a STR that records no fault did its write, and advancing the pc changes no answer of the read path. -/
theorem loadReturnsTheMostRecentStore : Obligations.LoadReturnsTheMostRecentStore := by
  unfold Obligations.LoadReturnsTheMostRecentStore
  intro a b s t _ hexec hnone addr
  obtain ⟨u, hwrite, rfl⟩ | ⟨r, -, rfl⟩ := afterAccess_next_cases hexec
  · exact memRead_of_memWrite hwrite addr
  · cases hnone

end Sys2Proof.Machine
end

section
/-! Proofs of the statements of 43_arithmetic.md section 2 (R99, R100): ADD, ADI, SUB and SBI over integers. -/

namespace Sys2Proof.Machine

/-! ### Signed words -/

/-- The signed value of a word (00_scope.md R10). -/
theorem toInt_word (v : Word) : v.toInt = if v.toNat < 32768 then (v.toNat : Int) else v.toNat - 65536 := by
  rw [BitVec.toInt_eq_toNat_cond]
  have h : 2 * v.toNat < 2 ^ 16 ↔ v.toNat < 32768 := by omega
  simp only [h]
  rfl

theorem toInt_not_word (v : Word) : (~~~v).toInt = -v.toInt - 1 := by
  have hv := v.isLt
  rw [toInt_word, toInt_word, BitVec.toNat_not]
  split_ifs <;> omega

theorem zextImm4_toNat (imm4 : Nibble) : (zextImm4 imm4).toNat = imm4.toNat :=
  BitVec.toNat_setWidth_of_le (by decide)

/-- A zero-extended immediate is never negative (30_encoding.md R65). -/
theorem zextImm4_toInt (imm4 : Nibble) : (zextImm4 imm4).toInt = imm4.toNat := by
  have himm := imm4.isLt
  rw [toInt_word, zextImm4_toNat, if_pos (by omega)]

/-- The sign rule says that the sum of the signed operands leaves the signed range (43_arithmetic.md R100). -/
theorem adderOverflow_iff_signed (p q : Word) (cin : Bool) :
    adderOverflow p q cin = true ↔
      p.toInt + q.toInt + cin.toNat < -32768 ∨ 32767 < p.toInt + q.toInt + cin.toNat := by
  have hp := p.isLt
  have hq := q.isLt
  have hcin := cin.toNat_le
  rw [adderOverflow_iff, adderSum, toInt_word, toInt_word]
  split_ifs <;> omega

/-! ### The four instructions -/

/-- What an instruction that runs the adder and advances the pc does, with its sum, its carry and its signed range said
in the instruction's own terms (43_arithmetic.md R98, R100). -/
theorem exec_of_basicAdd_advancePc {i : Instr} {p q : Word} {cin : Bool} {d : Reg} {s : State} {n : Nat}
    {carry overflow : Prop} [Decidable carry] [Decidable overflow]
    (hexec : exec i s = .next (basicAdd p q cin d s).advancePc) (hsum : adderSum p q cin % 65536 = n)
    (hcarry : 65536 ≤ adderSum p q cin ↔ carry)
    (hrange : (p.toInt + q.toInt + cin.toNat < -32768 ∨ 32767 < p.toInt + q.toInt + cin.toNat) ↔ overflow) :
    ∃ t, exec i s = .next t ∧ (t.reg d).toNat = n ∧ t.carry = decide carry ∧ t.overflow = decide overflow ∧
      t.pc = s.pc + 1#16 ∧ SameRegsBut d s t ∧ SameMemory s t ∧ SameControl s t := by
  refine ⟨_, hexec, ?_, ?_, ?_, rfl, fun r hr => basicAdd_reg_other p q cin d r s hr, fun k j => ?_, rfl, rfl⟩
  · rw [State.advancePc_reg, basicAdd_reg_same, adderResult_toNat, hsum]
  · rw [State.advancePc_carry, basicAdd_carry, adderCarry, decide_eq_decide.mpr hcarry]
  · rw [State.advancePc_overflow, basicAdd_overflow, Bool.eq_iff_iff, adderOverflow_iff_signed, hrange,
      decide_eq_true_iff]
  · rw [State.advancePc_word, basicAdd_word]

/-- Settles O23: the adder with carry-in 0, on the two registers or on the register and the zero-extended immediate. -/
theorem addAndAdiAddIntegers : Obligations.AddAndAdiAddIntegers := by
  unfold Obligations.AddAndAdiAddIntegers
  intro a b d imm4 s
  constructor
  · refine exec_of_basicAdd_advancePc (p := s.reg a) (q := s.reg b) (cin := false) rfl ?_ ?_ ?_
    · rfl
    · rfl
    · simp
  · have hlow : -32768 ≤ (s.reg a).toInt := BitVec.le_toInt _
    refine exec_of_basicAdd_advancePc (p := s.reg a) (q := zextImm4 imm4) (cin := false) rfl ?_ ?_ ?_
    · rw [adderSum, zextImm4_toNat]; rfl
    · rw [adderSum, zextImm4_toNat]; rfl
    · rw [zextImm4_toInt, Bool.toNat_false]; omega

/-- The adder's sum for a difference: the complement with carry-in 1 adds 65536 minus the subtrahend
(43_arithmetic.md R99). -/
theorem adderSum_not (p q : Word) : adderSum p (~~~q) true = p.toNat + 65536 - q.toNat := by
  have hq := q.isLt
  rw [adderSum, BitVec.toNat_not, Bool.toNat_true]
  omega

/-- Settles O24: the adder on the complement with carry-in 1, whose signed value is one less than the negation. -/
theorem subAndSbiSubtractIntegers : Obligations.SubAndSbiSubtractIntegers := by
  unfold Obligations.SubAndSbiSubtractIntegers
  intro a b d imm4 s
  constructor
  · refine exec_of_basicAdd_advancePc (p := s.reg a) (q := ~~~(s.reg b)) (cin := true) rfl ?_ ?_ ?_
    · rw [adderSum_not]
    · rw [adderSum_not]; omega
    · rw [toInt_not_word, Bool.toNat_true]; omega
  · have hhigh : (s.reg a).toInt < 32768 := BitVec.toInt_lt
    refine exec_of_basicAdd_advancePc (p := s.reg a) (q := ~~~(zextImm4 imm4)) (cin := true) rfl ?_ ?_ ?_
    · rw [adderSum_not, zextImm4_toNat]
    · rw [adderSum_not, zextImm4_toNat]; omega
    · rw [toInt_not_word, zextImm4_toInt, Bool.toNat_true]; omega

end Sys2Proof.Machine
end

section
/-! Proofs of the statements of 44_logic_and_shift.md (R111) and 45_branch.md (R113, R114): SHF, BRV and BRF. -/

namespace Sys2Proof.Machine

/-! ### SHF -/

theorem getLsbD_eq_decide (v : Word) (k : Nat) : v.getLsbD k = decide (v.toNat / 2 ^ k % 2 = 1) := by
  rw [BitVec.getLsbD, Nat.testBit_eq_decide_div_mod_eq]

/-- What SHF does for any direction and amount: one register, C, and the pc (44_logic_and_shift.md R111). -/
theorem exec_shf (a d : Reg) (dir : ShiftDir) (k : Nat) (s : State) :
    ∃ t, exec (.shf a dir k d) s = .next t ∧ t.reg d = shiftResult (s.reg a) dir k ∧
      t.carry = shiftCarry (s.reg a) dir k ∧ t.overflow = s.overflow ∧ t.pc = s.pc + 1#16 ∧
      SameRegsBut d s t ∧ SameMemory s t ∧ SameControl s t := by
  refine ⟨_, rfl, reg_setReg_advancePc _ d _, rfl, rfl, rfl, fun r hr => ?_, fun j i => ?_, rfl, rfl⟩
  · exact (s.setCarry _).reg_setReg_other d r _ hr
  · cases j <;> rfl

/-- Settles O26: the shifts of the library are a multiplication and a division by a power of 2. -/
theorem shfShiftsAndCarries : Obligations.ShfShiftsAndCarries := by
  unfold Obligations.ShfShiftsAndCarries
  intro a k d s _ _
  constructor
  · obtain ⟨t, hexec, hreg, hcarry, hframe⟩ := exec_shf a d .left k s
    refine ⟨t, hexec, ?_, ?_, hframe⟩
    · rw [hreg, shiftResult, BitVec.toNat_shiftLeft, Nat.shiftLeft_eq]
    · rw [hcarry, shiftCarry, getLsbD_eq_decide]
  · obtain ⟨t, hexec, hreg, hcarry, hframe⟩ := exec_shf a d .right k s
    refine ⟨t, hexec, ?_, ?_, hframe⟩
    · rw [hreg, shiftResult, BitVec.toNat_ushiftRight, Nat.shiftRight_eq_div_pow]
    · rw [hcarry, shiftCarry, getLsbD_eq_decide]

/-! ### BRV and BRF -/

/-- A branch touches nothing but the pc (45_branch.md R113, R114). -/
theorem onlyPc_branchTo (taken : Bool) (target : Word) (s : State) : OnlyPc s (branchTo taken target s) := by
  rw [branchTo_eq_setPc]
  exact ⟨fun _ => rfl, ⟨rfl, rfl⟩, fun k _ => by cases k <;> rfl, rfl, rfl⟩

theorem branchTo_pc {taken : Bool} {p : Prop} [Decidable p] (h : taken = true ↔ p) (target : Word) (s : State) :
    (branchTo taken target s).pc = if p then target else s.pc + 1#16 := by
  rw [branchTo_eq_setPc, State.setPc_pc]
  exact if_congr h rfl rfl

theorem isNegative_iff (v : Word) : isNegative v = true ↔ v.toInt < 0 := by
  have hv := v.isLt
  rw [isNegative_eq, decide_eq_true_iff, toInt_word]
  split_ifs <;> omega

theorem isZero_iff (v : Word) : isZero v = true ↔ v.toInt = 0 := by
  rw [isZero, beq_iff_eq, ← BitVec.toInt_inj]
  rfl

/-- A word that is neither negative nor zero is positive (45_branch.md R113). -/
theorem isPositive_iff (v : Word) : isPositive v = true ↔ 0 < v.toInt := by
  rw [isPositive, Bool.and_eq_true, Bool.not_eq_true', Bool.not_eq_true', ← Bool.not_eq_true, ← Bool.not_eq_true,
    isNegative_iff, isZero_iff]
  omega

theorem valueCondition_iff (v : Word) (n z p : Bool) :
    valueCondition v n z p = true ↔
      (n = true ∧ v.toInt < 0) ∨ (z = true ∧ v.toInt = 0) ∨ (p = true ∧ 0 < v.toInt) := by
  simp only [valueCondition, Bool.or_eq_true, Bool.and_eq_true, isNegative_iff, isZero_iff, isPositive_iff, or_assoc]

theorem flagCondition_iff (overflow carry v cy : Bool) :
    flagCondition overflow carry v cy = true ↔ (v = true ∧ overflow = true) ∨ (cy = true ∧ carry = true) := by
  simp only [flagCondition, Bool.or_eq_true, Bool.and_eq_true]

/-- Settles O27: the classes are the signs of the signed value. -/
theorem brvBranchesOnTheSelectedClasses : Obligations.BrvBranchesOnTheSelectedClasses := by
  unfold Obligations.BrvBranchesOnTheSelectedClasses
  intro a b n z p s
  exact ⟨_, rfl, onlyPc_branchTo _ _ s, branchTo_pc (valueCondition_iff (s.reg a) n z p) (s.reg b) s⟩

/-- Settles O28: the condition is read from the two flags. -/
theorem brfBranchesOnTheSelectedFlags : Obligations.BrfBranchesOnTheSelectedFlags := by
  unfold Obligations.BrfBranchesOnTheSelectedFlags
  intro b v cy s
  exact ⟨_, rfl, onlyPc_branchTo _ _ s, branchTo_pc (flagCondition_iff s.overflow s.carry v cy) (s.reg b) s⟩

end Sys2Proof.Machine
end

section
/-! Proofs of the statements of 40_engine.md sections 2 and 4: the run loop as steps of the machine (R80, R82), where a
run starts and how it ends (R81, R87, R91). -/

namespace Sys2Proof.Machine

/-! ### The loop, case by case -/

theorem runLoop_succ_of_fault_some {n : Nat} {s t : State} {r : FaultRecord} (h : step s = .next t)
    (hr : t.fault = some r) : runLoop (n + 1) s = .next { steps := 1, halted := false, state := t } := by
  rw [runLoop, stepCommand_of_step h, stepReply_of_fault_some s hr]

theorem runLoop_succ_of_halts {n : Nat} {s t : State} (h : step s = .next t) (hf : t.fault = none)
    (hh : halts s.fetched = true) : runLoop (n + 1) s = .next { steps := 1, halted := true, state := t } := by
  rw [runLoop, stepCommand_of_step h, stepReply_of_fault_none s hf, hh]

theorem runLoop_succ_of_not_halts {n : Nat} {s t : State} {e : FrameEnd} (h : step s = .next t)
    (hf : t.fault = none) (hh : halts s.fetched = false) (he : runLoop n t = .next e) :
    runLoop (n + 1) s = .next e.afterStep := by
  rw [runLoop, stepCommand_of_step h, stepReply_of_fault_none s hf, hh]
  simp only [he]

/-- The loop ends: its budget falls with every step (40_engine.md R82). -/
theorem runLoop_total (n : Nat) {s : State} (h : s.fault = none) : ∃ e, runLoop n s = .next e := by
  induction n generalizing s with
  | zero => exact ⟨_, rfl⟩
  | succ n ih =>
    obtain ⟨t, ht⟩ := step_total h
    cases hf : t.fault with
    | some r => exact ⟨_, runLoop_succ_of_fault_some ht hf⟩
    | none =>
      cases hh : halts s.fetched with
      | true => exact ⟨_, runLoop_succ_of_halts ht hf hh⟩
      | false =>
        obtain ⟨e, he⟩ := ih hf
        exact ⟨_, runLoop_succ_of_not_halts ht hf hh he⟩

theorem halts_eq_true_iff {i : Instr} : halts i = true ↔ i = .endFrame := by
  rw [halts_eq_decide, decide_eq_true_iff]

theorem halts_eq_false_iff {i : Instr} : halts i = false ↔ i ≠ .endFrame := by
  rw [halts_eq_decide, decide_eq_false_iff_not]

/-- Settles O44, by induction on the budget: a loop that goes on spends one step of it, and one that ends at its first
step ended at END or at a fault. -/
theorem framesStayWithinTheirBudget : Obligations.FramesStayWithinTheirBudget := by
  unfold Obligations.FramesStayWithinTheirBudget
  refine ⟨fun _ => rfl, fun n => ?_⟩
  induction n with
  | zero =>
    intro s e h
    cases h
    exact ⟨le_rfl, fun hlt => absurd hlt (lt_irrefl 0), fun hh => by cases hh⟩
  | succ n ih =>
    intro s e h
    obtain ⟨t, hstep, hcase⟩ := runLoop_succ_inv h
    obtain ⟨-, -, e', he', rfl⟩ | ⟨-, hend, rfl⟩ | ⟨hfault, rfl⟩ := hcase
    · obtain ⟨hle, hearly, hlast⟩ := ih t e' he'
      refine ⟨Nat.succ_le_succ hle, fun hlt => hearly (Nat.lt_of_succ_lt_succ hlt), fun hh => ?_⟩
      obtain ⟨k, u, hk, hu, hfetched⟩ := hlast hh
      exact ⟨k + 1, u, congrArg (· + 1) hk, (core_run_succ_of_next hstep).trans hu, hfetched⟩
    · exact ⟨Nat.succ_le_succ n.zero_le, fun _ => .inl rfl, fun _ => ⟨0, s, rfl, rfl, halts_eq_true_iff.mp hend⟩⟩
    · exact ⟨Nat.succ_le_succ n.zero_le, fun _ => .inr hfault, fun hh => by cases hh⟩

/-- Settles O45, by induction on the budget: the loop's first step is the machine's, and what follows is the loop from
the next state. -/
theorem frameIsIteratedSteps : Obligations.FrameIsIteratedSteps := by
  unfold Obligations.FrameIsIteratedSteps
  intro n
  induction n with
  | zero =>
    intro s e h
    cases h
    exact ⟨rfl, fun j hj => absurd hj j.not_lt_zero⟩
  | succ n ih =>
    intro s e h
    obtain ⟨t, hstep, hcase⟩ := runLoop_succ_inv h
    obtain ⟨hnone, -⟩ := step_next_inv hstep
    have hone : Sys2Proof.core.run 1 s = .next t := core_run_succ_of_next hstep
    have hfirst (j : Nat) (hj : j < 1) : ∃ u : State, Sys2Proof.core.run j s = .next u ∧ u.fault = none ∧
        (j + 1 < 1 → u.fetched ≠ .endFrame) := by
      obtain rfl := Nat.lt_one_iff.mp hj
      exact ⟨s, rfl, hnone, fun hlt => absurd hlt (lt_irrefl 1)⟩
    obtain ⟨-, hgoes, e', he', rfl⟩ | ⟨-, -, rfl⟩ | ⟨-, rfl⟩ := hcase
    · obtain ⟨hrun, hbefore⟩ := ih t e' he'
      refine ⟨(core_run_succ_of_next hstep).trans hrun, fun j hj => ?_⟩
      cases j with
      | zero => exact ⟨s, rfl, hnone, fun _ => halts_eq_false_iff.mp hgoes⟩
      | succ j =>
        obtain ⟨u, hu, huf, hend⟩ := hbefore j (Nat.lt_of_succ_lt_succ hj)
        exact ⟨u, (core_run_succ_of_next hstep).trans hu, huf, fun hlt => hend (Nat.lt_of_succ_lt_succ hlt)⟩
    · exact ⟨hone, hfirst⟩
    · exact ⟨hone, hfirst⟩

/-! ### The run -/

/-- A run is the loop from the synchronised pc and what follows it (40_engine.md R80, R81). -/
theorem runFrame_of_runLoop {n : Nat} {s : State} {e : FrameEnd} (hf : s.fault = none)
    (he : runLoop n s.syncPc = .next e) : runFrame n s = .next (finishRun e.state) := by
  rw [runFrame, hf]
  simp only [he]

theorem runFrame_total (n : Nat) {s : State} (hf : s.fault = none) :
    ∃ e, runLoop n s.syncPc = .next e ∧ runFrame n s = .next (finishRun e.state) := by
  obtain ⟨e, he⟩ := runLoop_total (s := s.syncPc) n hf
  exact ⟨e, he, runFrame_of_runLoop hf he⟩

theorem finishRun_of_fault_some {s : State} {f : FaultRecord} (h : s.fault = some f) :
    finishRun s = (.raised f, s) := by
  rw [finishRun, h]

/-- Settles O46: the loop ends and keeps the selector, and its last state has a record or not. -/
theorem everyRunEndsWithSwapOrFault : Obligations.EveryRunEndsWithSwapOrFault := by
  unfold Obligations.EveryRunEndsWithSwapOrFault
  intro n s hf
  obtain ⟨e, he, hrun⟩ := runFrame_total n hf
  have hactive := (runLoop_syncPc_stepFrame he).active
  cases hfault : e.state.fault with
  | none =>
    rw [finishRun_of_fault_none hfault] at hrun
    exact ⟨_, _, hrun, .inl ⟨_, rfl, e.state.swap_fault.trans hfault, congrArg Bank.other hactive⟩⟩
  | some f =>
    rw [finishRun_of_fault_some hfault] at hrun
    exact ⟨_, _, hrun, .inr ⟨f, rfl, hfault, hactive⟩⟩

/-- After the swap the frame-sync cell is the copied one (40_engine.md R84). -/
theorem State.swap_frameSync (s : State) : s.swap.frameSync = s.frameSync := by
  rw [State.frameSync, State.swap_active, State.swap_buffer, if_pos rfl, Memory.readWord_writeWord_same]

/-- Settles O49: the synchronised state does not depend on the pc, and the swap copies word 0 of the returned buffer to
where the next run reads it. -/
theorem runStartsAtTheFrameSyncCell : Obligations.RunStartsAtTheFrameSyncCell := by
  unfold Obligations.RunStartsAtTheFrameSyncCell
  refine ⟨fun _ => rfl, fun n s hf => runFrame_total n hf, fun _ _ _ => rfl, fun s hf => ?empty,
    fun n s t out h => ?next⟩
  case empty => exact ⟨_, _, runFrame_zero hf, s.syncPc.swap_pc⟩
  case next =>
    obtain ⟨e, -, hfault, rfl, rfl⟩ := runFrame_buffer_inv h
    have hsync : e.state.swap.syncPc = e.state.swap.setPc e.state.frameSync := by
      rw [State.syncPc, State.swap_frameSync]
    refine ⟨e.state.frameSync, getElem?_bufferWords _ (by decide), hsync, fun m => ?_⟩
    rw [← hsync]
    exact runFrame_total m (e.state.swap_fault.trans hfault)

/-! ### A fault inside a run -/

/-- The last step of a run of the machine. -/
theorem core_run_succ_last {k : Nat} {s t u : State} (h : Sys2Proof.core.run (k + 1) s = .next t)
    (hu : Sys2Proof.core.run k s = .next u) : step u = .next t := by
  induction k generalizing s with
  | zero =>
    obtain ⟨v, hstep, hrest⟩ := core_run_succ_next_inv h
    rwa [core_run_zero_next_iff.mp hrest, core_run_zero_next_iff.mp hu] at hstep
  | succ k ih =>
    obtain ⟨v, hstep, hrest⟩ := core_run_succ_next_inv h
    exact ih hrest ((core_run_succ_of_next hstep).symm.trans hu)

/-- Settles O50: the loop is the machine's steps, the state before its last step had no record, so the last step raised
the fault, and a raised fault is precise. -/
theorem faultInsideARunSkipsTheSwap : Obligations.FaultInsideARunSkipsTheSwap := by
  unfold Obligations.FaultInsideARunSkipsTheSwap
  intro n s t f h
  obtain ⟨hnone, e, hloop, hfinish⟩ := runFrame_next_inv h
  obtain ⟨f', hfault, hreply, rfl⟩ | ⟨-, hbuffer, -⟩ := finishRun_cases hfinish
  case inr => cases hbuffer
  cases hreply
  obtain ⟨-, -, hactive, hinactive⟩ := runLoop_syncPc_stepFrame hloop
  obtain ⟨hrun, hbefore⟩ := frameIsIteratedSteps n s.syncPc e hloop
  obtain ⟨-, hbudget⟩ := framesStayWithinTheirBudget
  obtain ⟨hle, -, -⟩ := hbudget n s.syncPc e hloop
  refine ⟨hfault, hactive, fun i => congrArg (Memory.readWord · i) hinactive, ?_⟩
  cases hsteps : e.steps with
  | zero =>
    rw [hsteps] at hrun
    have hstart : s.syncPc.fault = some f := by rwa [core_run_zero_next_iff.mp hrun]
    exact absurd (hnone.symm.trans hstart) (by simp)
  | succ k =>
    rw [hsteps] at hrun hle hbefore
    obtain ⟨u, hu, hunone, -⟩ := hbefore k k.lt_succ_self
    have hlast : step u = .next e.state := core_run_succ_last hrun hu
    exact ⟨k, u, hle, hu, hunone, hlast, faultsArePrecise u e.state f hlast hfault⟩

end Sys2Proof.Machine
end

section
/-! Proofs of the statements about the inactive buffer (20_memory.md R47): neither a step nor the answer of a run
depends on what it holds. -/

namespace Sys2Proof.Machine

/-! ### What the other contents leave as it was -/

@[simp] theorem State.withInactive_active (s : State) (m : Memory) : (s.withInactive m).active = s.active :=
  s.setBuffer_active ..

@[simp] theorem State.withInactive_fault (s : State) (m : Memory) : (s.withInactive m).fault = s.fault :=
  s.setBuffer_fault ..

@[simp] theorem State.withInactive_reg (s : State) (m : Memory) (r : Reg) : (s.withInactive m).reg r = s.reg r :=
  s.setBuffer_reg ..

@[simp] theorem State.withInactive_carry (s : State) (m : Memory) : (s.withInactive m).carry = s.carry :=
  s.setBuffer_carry ..

@[simp] theorem State.withInactive_overflow (s : State) (m : Memory) : (s.withInactive m).overflow = s.overflow :=
  s.setBuffer_overflow ..

@[simp] theorem State.withInactive_fetched (s : State) (m : Memory) : (s.withInactive m).fetched = s.fetched := by
  simp [State.withInactive, State.fetched, State.instrAt]

@[simp] theorem State.withInactive_buffer_active (s : State) (m : Memory) :
    (s.withInactive m).buffer s.active = s.buffer s.active := by
  rw [State.withInactive, State.buffer_setBuffer, if_neg s.active.other_ne.symm]

theorem State.withInactive_setPc (s : State) (v : Word) (m : Memory) :
    (s.setPc v).withInactive m = (s.withInactive m).setPc v := by
  simp only [State.withInactive, State.setPc_active]
  cases s.active.other <;> rfl

theorem State.withInactive_advancePc (s : State) (m : Memory) :
    s.advancePc.withInactive m = (s.withInactive m).advancePc := by
  simp only [State.withInactive, State.advancePc_active]
  cases s.active.other <;> rfl

theorem State.withInactive_setReg (s : State) (d : Reg) (v : Word) (m : Memory) :
    (s.setReg d v).withInactive m = (s.withInactive m).setReg d v := by
  simp only [State.withInactive, State.setReg_active]
  cases s.active.other <;> rfl

theorem State.withInactive_raiseFault (s : State) (r : FaultRecord) (m : Memory) :
    (s.raiseFault r).withInactive m = (s.withInactive m).raiseFault r := by
  simp only [State.withInactive, State.raiseFault_active]
  cases s.active.other <;> rfl

theorem State.withInactive_syncPc (s : State) (m : Memory) : (s.withInactive m).syncPc = s.syncPc.withInactive m := by
  simp only [State.syncPc, State.frameSync, State.withInactive_setPc, State.withInactive_active,
    State.withInactive_buffer_active]

theorem withInactive_branchTo (taken : Bool) (target : Word) (s : State) (m : Memory) :
    (branchTo taken target s).withInactive m = branchTo taken target (s.withInactive m) := by
  cases taken
  · exact s.withInactive_advancePc m
  · exact s.withInactive_setPc target m

/-! ### The accesses -/

theorem memRead_withInactive (addr : Word) (s : State) (m : Memory) :
    memRead addr (s.withInactive m) = memRead addr s := by
  unfold memRead
  cases route addr with
  | io k => simp
  | rom | ram | unmapped => simp [State.withInactive]

theorem memWrite_ok_withInactive {addr v : Word} {s t : State} (h : memWrite addr v s = .ok t) (m : Memory) :
    memWrite addr v (s.withInactive m) = .ok (t.withInactive m) := by
  obtain ⟨k, -, hroute, rfl⟩ | ⟨k, -, hroute, rfl⟩ := memWrite_ok_cases h
  case inl =>
    rw [memWrite, hroute]
    simp only [State.withInactive, State.setRam_active, State.setBuffer_ram]
    cases s.active.other <;> rfl
  case inr =>
    rw [memWrite, hroute]
    simp only [State.withInactive, State.writeBuffer_active, State.setBuffer_active]
    cases s.active <;> rfl

theorem memWrite_error_withInactive {addr v : Word} {s : State} {r : FaultRecord} (h : memWrite addr v s = .error r)
    (m : Memory) : memWrite addr v (s.withInactive m) = .error r := by
  obtain ⟨hrom, rfl⟩ | ⟨hlim, rfl⟩ := memWrite_error_cases h
  · exact memWrite_rom v _ hrom
  · exact memWrite_unmapped v _ hlim

/-! ### The step -/

/-- With other contents in the inactive buffer an instruction does the same and leaves them (20_memory.md R47): it
reads registers, flags and the active buffer, and what it writes lies beside the inactive one. -/
theorem exec_withInactive {i : Instr} {s t : State} (h : exec i s = .next t) (m : Memory) :
    exec i (s.withInactive m) = .next (t.withInactive m) := by
  cases i with
  | lod a d =>
    have hreg : (s.withInactive m).effectiveAddress a = s.effectiveAddress a := s.withInactive_reg m a
    obtain ⟨v, hread, rfl⟩ | ⟨r, hread, rfl⟩ := afterAccess_next_cases h <;>
      rw [← memRead_withInactive _ s m, ← hreg] at hread
    · rw [exec_lod_of_ok hread, State.withInactive_advancePc, State.withInactive_setReg]
    · rw [exec_lod_of_error hread, State.withInactive_raiseFault]
  | str a b =>
    have hreg : (s.withInactive m).effectiveAddress a = s.effectiveAddress a := s.withInactive_reg m a
    obtain ⟨u, hwrite, rfl⟩ | ⟨r, hwrite, rfl⟩ := afterAccess_next_cases h
    · have hwrite' := memWrite_ok_withInactive hwrite m
      rw [← hreg, ← s.withInactive_reg m b] at hwrite'
      rw [exec_str_of_ok hwrite', State.withInactive_advancePc]
    · have hwrite' := memWrite_error_withInactive hwrite m
      rw [← hreg, ← s.withInactive_reg m b] at hwrite'
      rw [exec_str_of_error hwrite', State.withInactive_raiseFault]
  | brv | brf =>
    cases h
    simp only [withInactive_branchTo, exec, execBrv, execBrf, State.withInactive_reg, State.withInactive_carry,
      State.withInactive_overflow]
  | endFrame | hby | lby | add | sub | adi | sbi | and | orr | xor | not | shf =>
    cases h
    obtain ⟨regs, pc, carry, overflow, prog, rom, ram, io1, io2, active, fault⟩ := s
    cases active <;> rfl

/-- Settles O36: the fetch reads no buffer, and each instruction commutes with the replacement. -/
theorem inactiveBufferIsInvisibleToAStep : Obligations.InactiveBufferIsInvisibleToAStep := by
  unfold Obligations.InactiveBufferIsInvisibleToAStep
  intro s t m h
  obtain ⟨hnone, hexec⟩ := step_next_inv h
  rw [step_of_fault_none ((s.withInactive_fault m).trans hnone), State.withInactive_fetched]
  exact exec_withInactive hexec m

/-! ### The run -/

/-- The end of a loop with other contents in the inactive buffer. -/
def FrameEnd.withInactive (e : FrameEnd) (m : Memory) : FrameEnd := { e with state := e.state.withInactive m }

theorem runLoop_withInactive {n : Nat} {s : State} {e : FrameEnd} (h : runLoop n s = .next e) (m : Memory) :
    runLoop n (s.withInactive m) = .next (e.withInactive m) := by
  induction n generalizing s e with
  | zero => cases h; rfl
  | succ n ih =>
    obtain ⟨t, hstep, hcase⟩ := runLoop_succ_inv h
    have hstep' := inactiveBufferIsInvisibleToAStep s t m hstep
    have hhalts : halts (s.withInactive m).fetched = halts s.fetched := by rw [State.withInactive_fetched]
    have hfault : (t.withInactive m).fault = t.fault := t.withInactive_fault m
    obtain ⟨hnone, hgoes, e', he', rfl⟩ | ⟨hnone, hend, rfl⟩ | ⟨hsome, rfl⟩ := hcase
    · exact runLoop_succ_of_not_halts hstep' (hfault.trans hnone) (hhalts.trans hgoes) (ih he')
    · exact runLoop_succ_of_halts hstep' (hfault.trans hnone) (hhalts.trans hend)
    · obtain ⟨r, hr⟩ := Option.ne_none_iff_exists'.mp hsome
      exact runLoop_succ_of_fault_some hstep' (hfault.trans hr)

/-- What follows the loop answers from the record and the outgoing buffer (40_engine.md R85, R87). -/
theorem finishRun_withInactive_reply (s : State) (m : Memory) : (finishRun (s.withInactive m)).1 = (finishRun s).1 := by
  cases hf : s.fault with
  | some f => rw [finishRun_of_fault_some hf, finishRun_of_fault_some ((s.withInactive_fault m).trans hf)]
  | none =>
    rw [finishRun_of_fault_none hf, finishRun_of_fault_none ((s.withInactive_fault m).trans hf)]
    simp only [State.withInactive_active, State.withInactive_buffer_active]

/-- Settles O37: the loop commutes with the replacement, and the reply does not see it. -/
theorem runOutputIgnoresTheInactiveBuffer : Obligations.RunOutputIgnoresTheInactiveBuffer := by
  unfold Obligations.RunOutputIgnoresTheInactiveBuffer
  intro n s t r m h
  obtain ⟨hnone, e, hloop, hfinish⟩ := runFrame_next_inv h
  have hloop' : runLoop n (s.withInactive m).syncPc = .next (e.withInactive m) := by
    rw [State.withInactive_syncPc]
    exact runLoop_withInactive hloop m
  have hreply : (finishRun (e.withInactive m).state).1 = r :=
    (finishRun_withInactive_reply e.state m).trans (congrArg Prod.fst hfinish)
  refine ⟨(finishRun (e.withInactive m).state).2, ?_⟩
  rw [runFrame_of_runLoop ((s.withInactive_fault m).trans hnone) hloop', ← hreply]

end Sys2Proof.Machine
end

section
/-! Proofs of the statements of 10_state.md section 7 and of the model's log 1: the canonical form of the stores, which
steps, commands and construction keep, and what a command never changes (R35). -/

namespace Sys2Proof.Machine

/-! ### A canonical store is determined by its words -/

/-- A canonical store lists no cell below its lower bound. -/
theorem Memory.readByte_eq_zero_of_lt {low k : Nat} {m : Memory} (h : Memory.wfFrom low m = true) (hk : k < low) :
    m.readByte k = 0#8 := by
  induction m generalizing low with
  | nil => rfl
  | cons c rest ih =>
    obtain ⟨j, b⟩ := c
    obtain ⟨hlow, -, hrest⟩ := (Memory.wfFrom_cons low j b rest).mp h
    rw [Memory.readByte_cons, if_neg (by omega)]
    exact ih hrest (by omega)

/-- Canonical stores with a listed cell each that read the same list the same first cell: the smaller of two first keys
would be listed in one of them alone. -/
theorem Memory.first_key_le {low j k : Nat} {b c : Byte} {m m' : Memory} (h : Memory.wfFrom low ((j, b) :: m) = true)
    (h' : Memory.wfFrom low ((k, c) :: m') = true)
    (hread : ∀ i, Memory.readByte ((j, b) :: m) i = Memory.readByte ((k, c) :: m') i) : k ≤ j := by
  obtain ⟨-, hb, -⟩ := (Memory.wfFrom_cons low j b m).mp h
  obtain ⟨-, hc, hm'⟩ := (Memory.wfFrom_cons low k c m').mp h'
  by_contra hlt
  have hlisted := hread j
  have habove : Memory.wfFrom k ((k, c) :: m') = true := (Memory.wfFrom_cons k k c m').mpr ⟨le_rfl, hc, hm'⟩
  rw [Memory.readByte_cons, if_pos rfl, Memory.readByte_eq_zero_of_lt habove (not_le.mp hlt)] at hlisted
  exact hb hlisted

theorem Memory.eq_of_readByte_eq {low : Nat} {m m' : Memory} (h : Memory.wfFrom low m = true)
    (h' : Memory.wfFrom low m' = true) (hread : ∀ i, m.readByte i = m'.readByte i) : m = m' := by
  induction m generalizing low m' with
  | nil =>
    cases m' with
    | nil => rfl
    | cons d rest' =>
      obtain ⟨k, c⟩ := d
      obtain ⟨-, hc, -⟩ := (Memory.wfFrom_cons low k c rest').mp h'
      have hlisted := hread k
      rw [Memory.readByte_nil, Memory.readByte_cons, if_pos rfl] at hlisted
      exact absurd hlisted.symm hc
  | cons d rest ih =>
    obtain ⟨j, b⟩ := d
    obtain ⟨-, hb, hrest⟩ := (Memory.wfFrom_cons low j b rest).mp h
    cases m' with
    | nil =>
      have hlisted := hread j
      rw [Memory.readByte_nil, Memory.readByte_cons, if_pos rfl] at hlisted
      exact absurd hlisted hb
    | cons d' rest' =>
      obtain ⟨k, c⟩ := d'
      obtain ⟨-, -, hrest'⟩ := (Memory.wfFrom_cons low k c rest').mp h'
      obtain rfl : j = k :=
        le_antisymm (Memory.first_key_le h' h fun i => (hread i).symm) (Memory.first_key_le h h' hread)
      have hcell := hread j
      rw [Memory.readByte_cons, Memory.readByte_cons, if_pos rfl, if_pos rfl] at hcell
      have htail (i : Nat) : Memory.readByte rest i = Memory.readByte rest' i := by
        by_cases hi : j = i
        · have hlt : i < j + 1 := by omega
          rw [Memory.readByte_eq_zero_of_lt hrest hlt, Memory.readByte_eq_zero_of_lt hrest' hlt]
        · have hread' := hread i
          rwa [Memory.readByte_cons, Memory.readByte_cons, if_neg hi, if_neg hi] at hread'
      rw [hcell, ih hrest hrest' htail]

/-- A word determines its two cells. -/
theorem byte_append_inj {high low high' low' : Byte} (h : high ++ low = high' ++ low') : high = high' ∧ low = low' := by
  have hnum := congrArg BitVec.toNat h
  rw [toNat_append_eq, toNat_append_eq] at hnum
  have hlow := low.isLt
  have hlow' := low'.isLt
  exact ⟨BitVec.eq_of_toNat_eq (by omega), BitVec.eq_of_toNat_eq (by omega)⟩

theorem Memory.readByte_eq_of_readWord_eq {m m' : Memory} (h : ∀ i, m.readWord i = m'.readWord i) (k : Nat) :
    m.readByte k = m'.readByte k := by
  obtain ⟨i, rfl | rfl⟩ := k.even_or_odd'
  · exact (byte_append_inj (h i)).2
  · exact (byte_append_inj (h i)).1

/-- Settles O43: the words determine the cells, and the cells determine a canonical list. -/
theorem canonicalStoresAreEqualWhenTheyReadTheSame : Obligations.CanonicalStoresAreEqualWhenTheyReadTheSame := by
  unfold Obligations.CanonicalStoresAreEqualWhenTheyReadTheSame
  intro m m' hm hm' hread
  exact Memory.eq_of_readByte_eq hm hm' (Memory.readByte_eq_of_readWord_eq hread)

/-! ### One word written, at most -/

theorem State.wf_iff (s : State) : s.wf = true ↔ ∀ k : Store, (s.store k).wfWithin k.words = true := by
  simp only [State.wf, Bool.and_eq_true]
  constructor
  · rintro ⟨⟨⟨⟨hprog, hrom⟩, hram⟩, hio1⟩, hio2⟩ k
    match k with
    | .prog => exact hprog
    | .rom => exact hrom
    | .ram => exact hram
    | .io .one => exact hio1
    | .io .two => exact hio2
  · exact fun h => ⟨⟨⟨⟨h .prog, h .rom⟩, h .ram⟩, h (.io .one)⟩, h (.io .two)⟩

theorem Memory.wfWithin_iff (m : Memory) (n : Nat) : m.wfWithin n = true ↔ m.wf = true ∧ m.within n = true := by
  rw [Memory.wfWithin, Bool.and_eq_true]

theorem Memory.wfWithin_writeWord {m : Memory} {n i : Nat} (v : Word) (hi : i < n) (h : m.wfWithin n = true) :
    (m.writeWord i v).wfWithin n = true := by
  obtain ⟨hwf, hwithin⟩ := (m.wfWithin_iff n).mp h
  exact (Memory.wfWithin_iff _ n).mpr ⟨Memory.wf_writeWord i v hwf, Memory.within_writeWord v hi hwithin⟩

/-- The stores of t are those of s, or those of s after one word write inside a store's size. -/
def AtMostOneWordWritten (s t : State) : Prop :=
  (∀ k, t.store k = s.store k) ∨
  ∃ (k : Store) (i : Nat) (v : Word), i < k.words ∧
    ∀ k', t.store k' = if k' = k then (s.store k).writeWord i v else s.store k'

theorem atMostOneWordWritten_setRam (s : State) {i : Nat} (v : Word) (hi : i < Config.ramWords) :
    AtMostOneWordWritten s (s.setRam (s.ram.writeWord i v)) := by
  refine .inr ⟨.ram, i, v, hi, fun k' => ?_⟩
  cases k' with
  | ram => rfl
  | prog | rom | io => simp [State.store]

theorem atMostOneWordWritten_writeBuffer (s : State) (b : Bank) {i : Nat} (v : Word) (hi : i < Config.ioWords) :
    AtMostOneWordWritten s (s.writeBuffer b i v) := by
  refine .inr ⟨.io b, i, v, hi, fun k' => ?_⟩
  cases k' with
  | io c => simp [State.store, State.buffer_writeBuffer]
  | prog | rom | ram => simp [State.store]

theorem memWrite_ok_atMostOneWordWritten {addr v : Word} {s t : State} (h : memWrite addr v s = .ok t) :
    AtMostOneWordWritten s t := by
  obtain ⟨k, hk, -, rfl⟩ | ⟨k, hk, -, rfl⟩ := memWrite_ok_cases h
  · exact atMostOneWordWritten_setRam s v hk
  · exact atMostOneWordWritten_writeBuffer s s.active v hk

/-- A change beside the stores writes no word. -/
theorem store_eq_of_components_eq {s t : State} (hprog : t.prog = s.prog) (hrom : t.rom = s.rom) (hram : t.ram = s.ram)
    (hbuffer : ∀ b, t.buffer b = s.buffer b) (k : Store) : t.store k = s.store k :=
  match k with
  | .prog => hprog
  | .rom => hrom
  | .ram => hram
  | .io b => hbuffer b

theorem AtMostOneWordWritten.of_store_eq {s t u : State} (h : AtMostOneWordWritten s t)
    (hu : ∀ k, u.store k = t.store k) : AtMostOneWordWritten s u := by
  unfold AtMostOneWordWritten at h ⊢
  simpa only [hu] using h

/-- STR is the one instruction that writes a word (42_load_store.md R97). -/
theorem exec_next_atMostOneWordWritten {i : Instr} {s t : State} (h : exec i s = .next t) :
    AtMostOneWordWritten s t := by
  cases i with
  | lod a d =>
    obtain ⟨v, -, rfl⟩ | ⟨r, -, rfl⟩ := afterAccess_next_cases h <;>
      exact .inl (store_eq_of_components_eq rfl rfl rfl fun _ => rfl)
  | str a b =>
    obtain ⟨u, hu, rfl⟩ | ⟨r, -, rfl⟩ := afterAccess_next_cases h
    · exact (memWrite_ok_atMostOneWordWritten hu).of_store_eq (store_eq_of_components_eq rfl rfl rfl fun _ => rfl)
    · exact .inl (store_eq_of_components_eq rfl rfl rfl fun _ => rfl)
  | brv | brf =>
    cases h
    rw [branchTo_eq_setPc]
    exact .inl (store_eq_of_components_eq rfl rfl rfl fun _ => rfl)
  | endFrame | hby | lby | add | sub | adi | sbi | and | orr | xor | not | shf =>
    cases h
    exact .inl (store_eq_of_components_eq rfl rfl rfl fun _ => rfl)

/-- One word write inside the size keeps every store canonical and inside its size. -/
theorem wf_of_atMostOneWordWritten {s t : State} (h : AtMostOneWordWritten s t) (hs : s.wf = true) : t.wf = true := by
  rw [State.wf_iff] at hs ⊢
  intro k'
  obtain hkept | ⟨k, i, v, hi, hwritten⟩ := h
  · rw [hkept]
    exact hs k'
  · rw [hwritten]
    split_ifs with heq
    · rw [heq]
      exact Memory.wfWithin_writeWord v hi (hs k)
    · exact hs k'

/-- Settles O39: a step writes at most one word, inside its store. -/
theorem stepsKeepWellFormedness : Obligations.StepsKeepWellFormedness := by
  unfold Obligations.StepsKeepWellFormedness
  intro s t hs h
  exact wf_of_atMostOneWordWritten (exec_next_atMostOneWordWritten (step_next_inv h).2) hs

/-! ### The commands -/

/-- What every step, the loading of the pc, the swap and a host write keep, every command keeps (40_engine.md R89). -/
theorem perform_preserves {P : State → Prop} (hstep : ∀ s t, P s → step s = .next t → P t)
    (hsync : ∀ s, P s → P s.syncPc) (hswap : ∀ s, P s → P s.swap) (hwrite : ∀ i v s, P s → P (hostWrite i v s))
    {c : Command} {s t : State} {r : Reply} (h : perform c s = .next (r, t)) (hs : P s) : P t := by
  cases c with
  | step =>
    rw [perform, performStep] at h
    split at h
    · next hcommand =>
      cases h
      obtain ⟨hst, -⟩ := stepCommand_next_inv hcommand
      exact hstep s t hs hst
    · cases h
    · cases h
  | run n =>
    rw [perform, performRun] at h
    split at h
    · next hrun =>
      cases h
      obtain ⟨-, e, hloop, hfinish⟩ := runFrame_next_inv hrun
      have hend : P e.state := runLoop_preserves hstep hloop (hsync s hs)
      obtain ⟨f, -, -, rfl⟩ | ⟨-, -, rfl⟩ := finishRun_cases hfinish
      · exact hend
      · exact hswap _ hend
    · cases h
    · cases h
  | hostRead i => cases h; exact hs
  | hostWrite i v => cases h; exact hwrite i v s hs
  | observe => cases h; exact hs

/-- Settles O41: the pc lies in no store, and the swap and a host write write one word of a buffer. -/
theorem commandsKeepWellFormedness : Obligations.CommandsKeepWellFormedness := by
  unfold Obligations.CommandsKeepWellFormedness
  intro c s t r hs h
  refine perform_preserves stepsKeepWellFormedness (fun u hu => ?sync) (fun u hu => ?swap) (fun i v u hu => ?write) h hs
  case sync => exact hu
  case swap =>
    exact wf_of_atMostOneWordWritten (atMostOneWordWritten_writeBuffer u u.active.other u.frameSync (by decide)) hu
  case write => exact wf_of_atMostOneWordWritten (atMostOneWordWritten_writeBuffer u u.active.other v i.isLt) hu

/-- Settles O42: no step, swap or host write reaches program memory or the data ROM. -/
theorem commandsNeverChangeProgramOrRom : Obligations.CommandsNeverChangeProgramOrRom := by
  unfold Obligations.CommandsNeverChangeProgramOrRom
  intro c s t r h i
  have hkept : t.prog = s.prog ∧ t.rom = s.rom := by
    refine perform_preserves (P := fun u => u.prog = s.prog ∧ u.rom = s.rom) ?step (fun _ hu => hu) ?swap ?write h
      ⟨rfl, rfl⟩
    case step =>
      rintro u v ⟨hprog, hrom⟩ huv
      have hframe := step_next_stepFrame huv
      exact ⟨hframe.prog.trans hprog, hframe.rom.trans hrom⟩
    case swap => exact fun u ⟨hprog, hrom⟩ => ⟨u.swap_prog.trans hprog, u.swap_rom.trans hrom⟩
    case write =>
      exact fun i v u ⟨hprog, hrom⟩ => ⟨(u.writeBuffer_prog ..).trans hprog, (u.writeBuffer_rom ..).trans hrom⟩
  obtain ⟨hprog, hrom⟩ := hkept
  exact ⟨congrArg (Memory.readWord · i) hprog, congrArg (Memory.readWord · i) hrom⟩

end Sys2Proof.Machine
end

section
/-! Proofs of the statements of 70_reset_and_hazards.md (R129, R130) and of 40_engine.md section 4 (R89, R90): the state
after reset, construction, host writes and observation. -/

namespace Sys2Proof.Machine

/-! ### Reset -/

theorem State.reset_store (k : Store) : State.reset.store k = [] := by
  cases k with
  | io b => cases b <;> rfl
  | prog | rom | ram => rfl

@[simp] theorem State.reset_word (k : Store) (i : Nat) : State.reset.word k i = 0#16 := by
  rw [State.word, State.reset_store, Memory.readWord_nil]

/-- Settles O52: the registers are 0, and the empty stores read as 0. -/
theorem resetValues : Obligations.ResetValues := by
  unfold Obligations.ResetValues
  exact ⟨State.reset_reg, rfl, rfl, rfl, State.reset_word, rfl, rfl⟩

theorem Memory.wfWithin_nil (n : Nat) : Memory.wfWithin [] n = true := rfl

/-- Settles O38: every store of the reset state is empty. -/
theorem resetIsWellFormed : Obligations.ResetIsWellFormed := by
  unfold Obligations.ResetIsWellFormed
  rw [State.wf_iff]
  intro k
  rw [State.reset_store, Memory.wfWithin_nil]

/-! ### Construction -/

/-- The stores of a constructed state: the two images, and nothing elsewhere (70_reset_and_hazards.md R129). -/
def imageStore (program data : List Word) : Store → Memory
  | .prog => Memory.loadWords [] 0 program
  | .rom => Memory.loadWords [] 0 data
  | .ram => []
  | .io _ => []

theorem store_of_construct_ok {program data : List Word} {s : State} (h : construct program data = .ok s) (k : Store) :
    s.store k = imageStore program data k := by
  obtain ⟨-, rfl⟩ := construct_ok_inv h
  cases k with
  | io b => cases b <;> rfl
  | prog | rom | ram => rfl

/-- An image that fits is loaded in canonical form (log 1). -/
theorem Memory.wfWithin_loadWords_nil {words : List Word} {n : Nat} (h : words.length ≤ n) :
    (Memory.loadWords [] 0 words).wfWithin n = true := by
  rw [Memory.wfWithin_iff]
  exact ⟨Memory.wf_loadWords words 0 rfl, Memory.within_loadWords words 0 ((Nat.zero_add _).le.trans h) rfl⟩

/-- Settles O40: construction succeeds only with images that fit, and they are loaded in canonical form. -/
theorem constructionIsWellFormed : Obligations.ConstructionIsWellFormed := by
  unfold Obligations.ConstructionIsWellFormed
  intro program data s h
  obtain ⟨hlength, -⟩ := construct_ok_inv h
  obtain ⟨hprogram, hdata⟩ := lengthError_eq_none_iff.mp hlength
  rw [State.wf_iff]
  intro k
  rw [store_of_construct_ok h]
  cases k with
  | prog => exact Memory.wfWithin_loadWords_nil hprogram
  | rom => exact Memory.wfWithin_loadWords_nil hdata
  | ram | io => exact Memory.wfWithin_nil _

/-- A loaded image is read back word by word, and the words before and after it are as before. -/
theorem Memory.readWord_loadWords (words : List Word) (m : Memory) (i j : Nat) :
    (m.loadWords i words).readWord j = if j < i then m.readWord j else words[j - i]?.getD (m.readWord j) := by
  induction words generalizing m i with
  | nil => simp [Memory.loadWords]
  | cons v rest ih =>
    rw [Memory.loadWords, ih, Memory.readWord_writeWord]
    obtain hlt | rfl | hgt := Nat.lt_trichotomy j i
    · rw [if_pos (by omega), if_neg (by omega), if_pos hlt]
    · simp
    · obtain ⟨n, rfl⟩ := Nat.exists_eq_add_of_lt hgt
      rw [if_neg (by omega), if_neg (by omega), if_neg (by omega), show i + n + 1 - (i + 1) = n by omega,
        show i + n + 1 - i = n + 1 by omega, List.getElem?_cons_succ]

/-- An image is zero-padded (70_reset_and_hazards.md R129). -/
theorem Memory.readWord_loadWords_nil (words : List Word) (i : Nat) :
    (Memory.loadWords [] 0 words).readWord i = words[i]?.getD 0#16 := by
  rw [Memory.readWord_loadWords, if_neg i.not_lt_zero, Nat.sub_zero, Memory.readWord_nil]

/-- Settles O54: images that fit raise no length error, and the constructed state is the reset state with the images in
its two stores. -/
theorem constructionPlacesTheImages : Obligations.ConstructionPlacesTheImages := by
  unfold Obligations.ConstructionPlacesTheImages
  intro program data hprogram hdata
  have hlength := lengthError_eq_none_iff.mpr ⟨hprogram, hdata⟩
  have hconstruct : construct program data =
      .ok ((State.reset.setProg (Memory.loadWords [] 0 program)).setRom (Memory.loadWords [] 0 data)) := by
    rw [construct, hlength]
  have hword (k : Store) (i : Nat) := congrArg (Memory.readWord · i) (store_of_construct_ok hconstruct k)
  refine ⟨_, hconstruct, fun i => ?prog, fun i => ?rom, fun i => ?ram, fun k i => ?io, State.reset_reg, rfl, rfl, rfl,
    rfl, rfl⟩
  case prog => exact (hword .prog i).trans (Memory.readWord_loadWords_nil program i)
  case rom => exact (hword .rom i).trans (Memory.readWord_loadWords_nil data i)
  case ram => exact (hword .ram i).trans (Memory.readWord_nil i)
  case io => exact (hword (.io k) i).trans (Memory.readWord_nil i)

/-! ### Host writes and observation -/

/-- A host write gives the inactive buffer other contents (40_engine.md R89). -/
theorem hostWrite_eq_withInactive (i : IoIndex) (v : Word) (s : State) :
    hostWrite i v s = s.withInactive ((s.buffer s.active.other).writeWord i.val v) := rfl

/-- Settles O56: a host write is one word write to the inactive buffer, and the read path does not see that buffer. -/
theorem hostWritesOnlyTheInactiveBuffer : Obligations.HostWritesOnlyTheInactiveBuffer := by
  unfold Obligations.HostWritesOnlyTheInactiveBuffer
  intro i v s
  obtain ⟨hword, hrest⟩ := word_eq_and_sameMemoryBut (s.word_writeBuffer s.active.other i.val v)
  have hread : hostRead i (hostWrite i v s) = v := by
    rw [hostRead, hostWrite, State.writeBuffer_active]
    exact hword
  refine ⟨hostWrite i v s, rfl, hword, hrest, s.writeBuffer_pc .., fun _ => s.writeBuffer_reg ..,
    ⟨s.writeBuffer_carry .., s.writeBuffer_overflow ..⟩, ⟨s.writeBuffer_active .., s.writeBuffer_fault ..⟩,
    fun addr => ?_, ?_⟩
  · rw [hostWrite_eq_withInactive, memRead_withInactive]
  · rw [perform, hread]

/-- Settles O57: the observation is a copy of the components it shows. -/
theorem observationChangesNothing : Obligations.ObservationChangesNothing := by
  unfold Obligations.ObservationChangesNothing
  intro s
  exact ⟨observe s, rfl, rfl, rfl, rfl, rfl, fun _ => rfl, fun _ => rfl⟩

end Sys2Proof.Machine
end
